-- ==== Sys2Proof/Word.lean ====
section
/-! DEFINITION. The word types of the PWM pulse codec core (00_scope.md R6, R8, R10). -/

namespace Sys2Proof

/-- The unit of transfer on the command port, a register, a duration and a repeat count: 32 bits
(20_memory.md R58, 00_scope.md R6 `DUR_W`, `REP_W`). -/
abbrev Word := BitVec 32

/-- A byte of a byte transport (20_memory.md R58). -/
abbrev Byte := BitVec 8

/-- A key, a REVB value and the bit accumulator: 64 bits (00_scope.md R6 `ACC_W`). -/
abbrev Key := BitVec 64

/-- A level: one bit, `true` is 1, high, a mark; `false` is 0, low, a space or gap (00_scope.md R10). -/
abbrev Level := Bool

end Sys2Proof
end

