-- ==== Sys2Proof/Config.lean ====
section
/-! DEFINITION. The parameters of the block (00_scope.md R6, R7) and the free values the spec leaves
unspecified (93_implementation_defined.md section 1). -/

namespace Sys2Proof

/-- `MAX_BITS`, the largest decoder bit count (00_scope.md R6). -/
def Config.maxBits : Nat := 64

/-- The smallest legal `CAP` (00_scope.md R7). -/
def Config.capMin : Nat := 2

/-- The largest legal `CAP`, `2*64+2` (00_scope.md R7). -/
def Config.capMax : Nat := 130

/-- The reference value of the OPEN parameter `CAP` (00_scope.md R6, 92_eei_decisions.md D21). Only
`State.reset` uses it; every state carries its own capacity in `State.cap`. DESIGN CHOICE (log 2). -/
def Config.refCap : BitVec 8 := 50#8

/-- `TICK`, the physical length of one duration unit: an OPEN parameter on which no rule depends
(00_scope.md R6, 70_reset_and_hazards.md R148). Nothing in the model reads it (log 11). -/
opaque Config.tick : Nat

/-- The free 32-bit values of U2 and U3: `DEC.PENDING` where it is unspecified, and the durations of
the waveform elements after a reset input. The argument counts the draws. Nothing constrains a value
(log 5). -/
opaque Config.freeWord : Nat → Word

/-- The free levels of U1 and U3: `LEVEL` of an idle marker, and the levels of the waveform elements
after a reset input. The argument counts the draws. Nothing constrains a value (log 5). -/
opaque Config.freeLevel : Nat → Level

end Sys2Proof
end

