-- ==== Sys2Proof/Machine/State.lean ====
section
/-! DEFINITION. The state of the block, as plain data: the architectural state of 10_state.md R16 (decoder,
encoder with its waveform buffer, profile registers, the constant CAPACITY), and the model's own three
fields for the command port and the free values (log 1, log 5). -/

namespace Sys2Proof.Machine

/-- The decoder's four states (10_state.md R18). -/
inductive DecStep where
  /-- 0: searching for a preamble. -/
  | idle
  /-- 1: preamble seen, expecting the start bit. -/
  | foundPreamble
  /-- 2: in a frame, expecting the first half of a bit cell or the end-of-frame gap. -/
  | awaitingBitHalf
  /-- 3: first half stored in `DEC.PENDING`, expecting the second half. -/
  | classifyingBitHalf
deriving DecidableEq, Repr

/-- The decoder state `DEC` (10_state.md section 2). -/
structure Decoder where
  /-- `DEC.STEP` (R18). -/
  step : DecStep
  /-- `DEC.ACC`, the bit accumulator (R19). -/
  acc : Key
  /-- `DEC.COUNT`, bits classified in the current frame (R20). -/
  count : BitVec 7
  /-- `DEC.PENDING`, the first half's duration (R21). -/
  pending : Word
deriving DecidableEq, Repr

/-- A waveform element, the pair `(level, duration)` (00_scope.md R8, 10_state.md R23). -/
structure Element where
  level : Level
  duration : Word
deriving DecidableEq, Repr

/-- The encoder state `ENC` with the waveform buffer `WAVE` (10_state.md section 3). -/
structure Encoder where
  /-- `WAVE[0..CAP-1]`, element `i` at position `i` (R23). -/
  wave : List Element
  /-- `ENC.LEN`, the number of valid elements (R24). -/
  len : BitVec 8
  /-- `ENC.CURSOR`, the next element EYIELD delivers (R25). -/
  cursor : BitVec 8
  /-- `ENC.REPEATS`, complete passes still to deliver (R26). -/
  repeats : Word
  /-- `ENC.RUNNING` (R27). -/
  running : Bool
deriving DecidableEq, Repr

/-- The profile register bank `CFG[0x00]` to `CFG[0x0E]`, each register whole, reserved bits included
(10_state.md section 4, R29 to R44). -/
structure Profile where
  ts : Word
  tl : Word
  tol : Word
  minb : Word
  preCtl : Word
  preKref : Word
  preKwin : Word
  sbCtl : Word
  sbKwin : Word
  cellKws : Word
  cellKwl : Word
  cellLvl : Word
  eofKs : Word
  eofKw : Word
  hdrK : Word
deriving DecidableEq, Repr

/-- What the host and platform do at the command port, one thing at a time (70_reset_and_hazards.md R133,
R146; log 1, log 6). -/
inductive Input where
  /-- A command word arrives. -/
  | word (w : Word)
  /-- The reset input is applied and released again; `ignored` are the words that arrived while it was
  applied, and those of a command it caught in progress (R133). -/
  | reset (ignored : List Word)
deriving DecidableEq, Repr

/-- The state of the block, and of its command port. -/
structure State where
  /-- The decoder (10_state.md R18 to R22). -/
  dec : Decoder
  /-- The encoder (10_state.md R23 to R28). -/
  enc : Encoder
  /-- The profile registers (10_state.md R29 to R44). -/
  prof : Profile
  /-- `CAP`, read at CAPACITY; no step changes it (10_state.md R45; log 2). -/
  cap : BitVec 8
  /-- MODEL'S OWN: what has arrived at the port and is not yet taken, oldest first (log 1). -/
  input : List Input
  /-- MODEL'S OWN: the response words answered so far, oldest first (log 1). -/
  output : List Word
  /-- MODEL'S OWN: how many free values have been drawn (log 5). -/
  draws : Nat
deriving DecidableEq, Repr

/-- Why the machine stops. The spec has no trap and no fault (60_exceptions.md R119). -/
inductive Fault where
  /-- Raised by `execEyield` alone, when the element to deliver lies outside `WAVE[0..CAP-1]`, which the
  spec says does not exist (20_memory.md R53). No state that meets `State.Inv` raises it, so no run from
  reset does. SAFE: the model stops where it could go on (log 8). -/
  | waveIndexOutside
deriving DecidableEq, Repr

/-- Why a command has no meaning. -/
inductive Refusal where
  /-- Raised by `exec` alone, for a command whose meaning is not written yet. Every command has its
  meaning, so nothing raises it. SAFE: the model stops. -/
  | notModelled (mnemonic : String)
deriving DecidableEq, Repr

/-- Every profile register 0: its reset value (70_reset_and_hazards.md R136). -/
def Profile.zero : Profile where
  ts := 0#32
  tl := 0#32
  tol := 0#32
  minb := 0#32
  preCtl := 0#32
  preKref := 0#32
  preKwin := 0#32
  sbCtl := 0#32
  sbKwin := 0#32
  cellKws := 0#32
  cellKwl := 0#32
  cellLvl := 0#32
  eofKs := 0#32
  eofKw := 0#32
  hdrK := 0#32

/-- A block of capacity `cap` right after power-on (70_reset_and_hazards.md R134 to R136), nothing
arrived and nothing answered. `DEC.PENDING` and every `WAVE[i]` are unspecified there; the model names 0
and `(low, 0)`. DESIGN CHOICE (log 3, log 4). -/
def State.resetWith (cap : BitVec 8) : State where
  dec := { step := .idle, acc := 0#64, count := 0#7, pending := 0#32 }
  enc :=
    { wave := List.replicate cap.toNat { level := false, duration := 0#32 }
      len := 0#8, cursor := 0#8, repeats := 0#32, running := false }
  prof := Profile.zero
  cap := cap
  input := []
  output := []
  draws := 0

/-- The machine right after reset, with the reference capacity 50 (00_scope.md R6; log 2). -/
def State.reset : State := State.resetWith Config.refCap

end Sys2Proof.Machine
end

