-- ==== Sys2Proof/Machine/Flags.lean ====
section
/-! DEFINITION. The response: its status, flags and fields, and the words they make (30_encoding.md R72, R73,
R75). The block holds no flag as state; the flags travel in the response. -/

namespace Sys2Proof.Machine

/-- The three statuses (30_encoding.md R73). -/
inductive Status where
  | ok | fail | illegal
deriving DecidableEq, Repr

/-- `STATUS`: 0 OK, 1 FAIL, 2 ILLEGAL (30_encoding.md R72, R73). -/
def statusCode : Status → BitVec 4
  | .ok => 0#4
  | .fail => 1#4
  | .illegal => 2#4

/-- The fields of a response; those a command does not name are 0 (30_encoding.md R72, R75). -/
structure Response where
  status : Status
  /-- FEED: `EMIT`. EYIELD: `VALID`. -/
  f0 : Bool := false
  /-- FEED: `BITV`. EYIELD: `LEVEL`. -/
  f1 : Bool := false
  /-- FEED: `BIT`. -/
  f2 : Bool := false
  /-- FEED: `BITS` of the emitted frame. -/
  rn : BitVec 7 := 0#7
  /-- The `OPC` of the command answered. -/
  echo : BitVec 8
  /-- The data words after the header. -/
  data : List Word := []
deriving DecidableEq, Repr

/-- The response header word (30_encoding.md R72). -/
def responseHeader (r : Response) : Word :=
  r.echo ++ 0#1 ++ r.rn ++ 0#5 ++ BitVec.ofBool r.f2 ++ BitVec.ofBool r.f1 ++ BitVec.ofBool r.f0 ++
    0#4 ++ statusCode r.status

/-- The words of a response: header, then data (30_encoding.md R67, R72). -/
def responseWords (r : Response) : List Word := responseHeader r :: r.data

end Sys2Proof.Machine
end

