-- ==== Sys2Proof/Syntax.lean ====
section
/-! DEFINITION. The eight commands as syntax: one constructor per row of spec/opcode_table.json
(30_encoding.md R69), its operands as 30_encoding.md R74 assembles them. -/

namespace Sys2Proof

/-- A command with its operands (30_encoding.md R69, R74). Counts are plain numbers; what fits the
header's 7-bit `N` field is `Instr.wellFormed`. -/
inductive Instr where
  /-- `FEED level, duration`: one pulse to the decoder (40_decoder.md R96). -/
  | feed (level : Level) (duration : Word)
  /-- `DRESET`: reset the decoder (40_decoder.md R97). -/
  | dreset
  /-- `ELOAD bit_count, key, repeat_count`: load a key and start playback (41_encoder.md R104). -/
  | eload (bitCount : Nat) (key : Key) (repeatCount : Word)
  /-- `ESTOP`: cancel playback (41_encoder.md R107). -/
  | estop
  /-- `EYIELD`: deliver the next waveform element (41_encoder.md R106). -/
  | eyield
  /-- `REVB width, value`: reverse the low `width` bits (42_bit_reversal.md R112). -/
  | revb (width : Nat) (value : Key)
  /-- `CFGWR index, value`: write a profile register (43_register_access.md R115). -/
  | cfgwr (index : BitVec 8) (value : Word)
  /-- `CFGRD index`: read a profile, constant or status register (43_register_access.md R116). -/
  | cfgrd (index : BitVec 8)
deriving DecidableEq, Repr

end Sys2Proof
end

