-- ==== Sys2Proof/WellFormed.lean ====
section
/-! DEFINITION. Which commands have an encoding: the counts fit the header's 7-bit field `N`
(30_encoding.md R68, R74). Every other operand fits its field by its type. A count above 64 is
well formed: REVB refuses it and ELOAD fails on capacity when they execute (R76). -/

namespace Sys2Proof

/-- The command can be written as command words (30_encoding.md R68, R74, R78). -/
def Instr.wellFormed : Instr → Bool
  | .feed _ _ => true
  | .dreset => true
  | .eload n _ _ => decide (n < 128)
  | .estop => true
  | .eyield => true
  | .revb w _ => decide (w < 128)
  | .cfgwr _ _ => true
  | .cfgrd _ => true

/-- `Instr.wellFormed` as a decidable proposition. -/
abbrev Instr.WellFormed (i : Instr) : Prop := i.wellFormed = true

end Sys2Proof
end

