-- ==== Sys2Proof/Decode.lean ====
section
/-! DEFINITION. Command words and commands: the header's fields (30_encoding.md R68), the opcode map
with its match and mask words (R69, R70), the decoder, total and rejecting by name (R70, R71, R76), and
after it the encoder (R68, R74, R78). -/

namespace Sys2Proof

/-! ## Header fields -/

/-- `OPC`, header bits `[7:0]` (30_encoding.md R68). -/
def hdrOpc (h : Word) : BitVec 8 := h.extractLsb' 0 8

/-- `L`, header bit `[8]` (30_encoding.md R68). -/
def hdrL (h : Word) : Level := h.getLsbD 8

/-- `N`, header bits `[22:16]`, zero-extended (30_encoding.md R68, R74). -/
def hdrN (h : Word) : Nat := (h.extractLsb' 16 7).toNat

/-- `A`, header bits `[31:24]` (30_encoding.md R68). -/
def hdrA (h : Word) : BitVec 8 := h.extractLsb' 24 8

/-- Low word of a 64-bit value, bits `[31:0]`: word 0 (20_memory.md R57). -/
def loWord (k : Key) : Word := k.extractLsb' 0 32

/-- High word of a 64-bit value, bits `[63:32]`: word 1 (20_memory.md R57). -/
def hiWord (k : Key) : Word := k.extractLsb' 32 32

/-- The 64-bit value `{hi, lo}` carried in two words (20_memory.md R57, 30_encoding.md R74). -/
def joinWords (lo hi : Word) : Key := hi ++ lo

/-! ## The opcode map -/

/-- The eight assigned opcodes (30_encoding.md R69). -/
inductive Opcode where
  | feed | dreset | eload | estop | eyield | revb | cfgwr | cfgrd
deriving DecidableEq, Repr

/-- `OPC` of each command (30_encoding.md R69). -/
def opcodeCode : Opcode → BitVec 8
  | .feed => 0x01#8
  | .dreset => 0x02#8
  | .eload => 0x10#8
  | .estop => 0x11#8
  | .eyield => 0x12#8
  | .revb => 0x20#8
  | .cfgwr => 0x30#8
  | .cfgrd => 0x31#8

/-- All assigned opcodes, in the order of 30_encoding.md R69. -/
def allOpcodes : List Opcode :=
  [.feed, .dreset, .eload, .estop, .eyield, .revb, .cfgwr, .cfgrd]

/-- The command an `OPC` selects; `none` for a reserved one (30_encoding.md R69, R76). -/
def opcodeOf (c : BitVec 8) : Option Opcode :=
  allOpcodes.find? fun o => decide (opcodeCode o = c)

/-- The number `k` of argument words (30_encoding.md R69). -/
def opcodeArgs : Opcode → Nat
  | .feed => 1
  | .dreset => 0
  | .eload => 3
  | .estop => 0
  | .eyield => 0
  | .revb => 2
  | .cfgwr => 1
  | .cfgrd => 0

/-- The match word (30_encoding.md R70). -/
def opcodeMatch : Opcode → Word
  | .feed => 0x00000001#32
  | .dreset => 0x00000002#32
  | .eload => 0x00000010#32
  | .estop => 0x00000011#32
  | .eyield => 0x00000012#32
  | .revb => 0x00000020#32
  | .cfgwr => 0x00000030#32
  | .cfgrd => 0x00000031#32

/-- The mask word (30_encoding.md R70). -/
def opcodeMask : Opcode → Word
  | .feed => 0xFFFFFEFF#32
  | .dreset => 0xFFFFFFFF#32
  | .eload => 0xFF80FFFF#32
  | .estop => 0xFFFFFFFF#32
  | .eyield => 0xFFFFFFFF#32
  | .revb => 0xFF80FFFF#32
  | .cfgwr => 0x00FFFFFF#32
  | .cfgrd => 0x00FFFFFF#32

/-- `k` from the header's `OPC` alone, 0 for an unknown one (30_encoding.md R71). -/
def argCount (h : Word) : Nat :=
  match opcodeOf (hdrOpc h) with
  | some o => opcodeArgs o
  | none => 0

/-! ## The decoder -/

/-- Why a header and its argument words are no command. The first two are ILLEGAL causes of
60_exceptions.md R120. -/
inductive DecodeError where
  /-- `OPC` is not one of the eight (30_encoding.md R76). -/
  | unknownOpcode
  /-- A known `OPC` with a nonzero masked bit (30_encoding.md R70). -/
  | malformedHeader
  /-- The argument words given are not the `k` words of R69. The port never does this: it reads exactly
  `k` (R71, `fetch`). -/
  | wrongArgCount
deriving DecidableEq, Repr

/-- What the decoder answers: a command, or why there is none. -/
inductive Decoded where
  | instr (i : Instr)
  | illegal (e : DecodeError)
deriving DecidableEq, Repr

/-- Operand assembly (30_encoding.md R74); `none` when the argument words are not `k` in number. -/
def operands (o : Opcode) (h : Word) (args : List Word) : Option Instr :=
  match o with
  | .feed => match args with
    | [d] => some (.feed (hdrL h) d)
    | _ => none
  | .dreset => match args with
    | [] => some .dreset
    | _ => none
  | .eload => match args with
    | [lo, hi, rep] => some (.eload (hdrN h) (joinWords lo hi) rep)
    | _ => none
  | .estop => match args with
    | [] => some .estop
    | _ => none
  | .eyield => match args with
    | [] => some .eyield
    | _ => none
  | .revb => match args with
    | [lo, hi] => some (.revb (hdrN h) (joinWords lo hi))
    | _ => none
  | .cfgwr => match args with
    | [v] => some (.cfgwr (hdrA h) v)
    | _ => none
  | .cfgrd => match args with
    | [] => some (.cfgrd (hdrA h))
    | _ => none

/-- Decode a header and its argument words, in the order of checks of 60_exceptions.md R124: unknown
`OPC`, then malformed header (30_encoding.md R70), then the operands (R74). -/
def decode (h : Word) (args : List Word) : Decoded :=
  match opcodeOf (hdrOpc h) with
  | none => .illegal .unknownOpcode
  | some o =>
    if h &&& opcodeMask o = opcodeMatch o then
      match operands o h args with
      | some i => .instr i
      | none => .illegal .wrongArgCount
    else .illegal .malformedHeader

/-! ## The encoder -/

/-- The opcode of a command (30_encoding.md R69). -/
def instrOpcode : Instr → Opcode
  | .feed _ _ => .feed
  | .dreset => .dreset
  | .eload _ _ _ => .eload
  | .estop => .estop
  | .eyield => .eyield
  | .revb _ _ => .revb
  | .cfgwr _ _ => .cfgwr
  | .cfgrd _ => .cfgrd

/-- The header word with the fields of 30_encoding.md R68 placed, reserved bits 0. -/
def mkHeader (opc : BitVec 8) (l : Level) (n : Nat) (a : BitVec 8) : Word :=
  a ++ 0#1 ++ BitVec.ofNat 7 n ++ 0#7 ++ BitVec.ofBool l ++ opc

/-- The header word of a command: the fields it uses, every other field 0 (30_encoding.md R68, R78). -/
def encodeHeader : Instr → Word
  | .feed l _ => mkHeader 0x01#8 l 0 0#8
  | .dreset => mkHeader 0x02#8 false 0 0#8
  | .eload n _ _ => mkHeader 0x10#8 false n 0#8
  | .estop => mkHeader 0x11#8 false 0 0#8
  | .eyield => mkHeader 0x12#8 false 0 0#8
  | .revb w _ => mkHeader 0x20#8 false w 0#8
  | .cfgwr a _ => mkHeader 0x30#8 false 0 a
  | .cfgrd a => mkHeader 0x31#8 false 0 a

/-- The argument words of a command (30_encoding.md R69, R74). -/
def encodeArgs : Instr → List Word
  | .feed _ d => [d]
  | .dreset => []
  | .eload _ key rep => [loWord key, hiWord key, rep]
  | .estop => []
  | .eyield => []
  | .revb _ v => [loWord v, hiWord v]
  | .cfgwr _ v => [v]
  | .cfgrd _ => []

/-- The words of a command: header, then arguments (30_encoding.md R67, R78). -/
def encode (i : Instr) : List Word := encodeHeader i :: encodeArgs i

/-! ## A byte transport, and the opcode table's numbering -/

/-- The bytes a byte transport carries for a word, least significant first (20_memory.md R58). -/
def wordBytes (w : Word) : List Byte :=
  [w.extractLsb' 0 8, w.extractLsb' 8 8, w.extractLsb' 16 8, w.extractLsb' 24 8]

/-- The words of a byte stream, least significant byte first; trailing bytes that make no whole word
carry no word (20_memory.md R58, R59). -/
def bytesWords : List Byte → List Word
  | b0 :: b1 :: b2 :: b3 :: rest => (b3 ++ b2 ++ b1 ++ b0) :: bytesWords rest
  | _ => []

/-- The words of the command whose bits are the low `nbits` bits of `w` and 0 above: the header is bits
31..0, argument word `j` is bits `32j+63..32j+32`, and there are as many as the header's `OPC` takes. -/
def tableWords (nbits w : Nat) : List Word :=
  let v := w % 2 ^ nbits
  let h := BitVec.ofNat 32 v
  h :: (List.range (argCount h)).map fun j => BitVec.ofNat 32 (v >>> (32 * (j + 1)))

/-- What the decoder reads from a command whose bits are `w`, as spec/opcode_table.json numbers them. -/
def decodeTableWord (nbits w : Nat) : Option Instr :=
  match tableWords nbits w with
  | [] => none
  | h :: args =>
    match decode h args with
    | .instr i => some i
    | .illegal _ => none

end Sys2Proof
end

