-- ==== Sys2Proof/Machine/Operands.lean ====
section
/-! DEFINITION. The operands of a meaning that are not in the command: the fields of the profile registers
(10_state.md R30 to R44), the register index map with its write masks (R29, R46 to R51; 43_register_access.md
R118), and exact arithmetic primitives (00_scope.md section 5, R13). -/

namespace Sys2Proof.Machine

/-! ## Primitives -/

/-- `within(d, ref, win)`: `abs(d - ref) < win` on exact integers, strictly (00_scope.md R9, R13). -/
def within (d ref win : Nat) : Bool := decide (((d : Int) - (ref : Int)).natAbs < win)

/-- `sat_32(v)`, `min(v, 2^32 - 1)` (00_scope.md section 5). -/
def sat32 (v : Nat) : Word := BitVec.ofNat 32 (min v (2 ^ 32 - 1))

/-- A 16-bit multiplier field `K`, register bits `[15:0]` (10_state.md R35 to R44). -/
def kField (r : Word) : Nat := (r.extractLsb' 0 16).toNat

/-! ## Profile fields -/

/-- `MINB.MINB`, bits `[6:0]` (10_state.md R33). -/
def minBits (p : Profile) : Nat := (p.minb.extractLsb' 0 7).toNat

/-- `PRE_CTL.LVL`, bit 0 (10_state.md R34). -/
def preLvl (p : Profile) : Level := p.preCtl.getLsbD 0

/-- `PRE_CTL.HOLD`, bit 1 (10_state.md R34). -/
def preHold (p : Profile) : Bool := p.preCtl.getLsbD 1

/-- `SB_CTL.LVL`, bit 0 (10_state.md R37). -/
def sbLvl (p : Profile) : Level := p.sbCtl.getLsbD 0

/-- `SB_CTL.REFSEL`, bit 1 (10_state.md R37). -/
def sbRefsel (p : Profile) : Bool := p.sbCtl.getLsbD 1

/-- `CELL_LVL.EN`, bit 0 (10_state.md R41). -/
def cellEn (p : Profile) : Bool := p.cellLvl.getLsbD 0

/-- `CELL_LVL.L1`, bit 1 (10_state.md R41). -/
def cellL1 (p : Profile) : Level := p.cellLvl.getLsbD 1

/-- `CELL_LVL.L2`, bit 2 (10_state.md R41). -/
def cellL2 (p : Profile) : Level := p.cellLvl.getLsbD 2

/-! ## Derived quantities, 40_decoder.md R80 -/

/-- `PRE_REF = PRE_KREF.K * TS`. -/
def preRef (p : Profile) : Nat := kField p.preKref * p.ts.toNat

/-- `PRE_WIN = PRE_KWIN.K * TOL`. -/
def preWin (p : Profile) : Nat := kField p.preKwin * p.tol.toNat

/-- `SB_REF`, `TL` when `SB_CTL.REFSEL = 1`, else `TS`. -/
def sbRef (p : Profile) : Nat := if sbRefsel p then p.tl.toNat else p.ts.toNat

/-- `SB_WIN = SB_KWIN.K * TOL`. -/
def sbWin (p : Profile) : Nat := kField p.sbKwin * p.tol.toNat

/-- `W_S = CELL_KWS.K * TOL`. -/
def winShort (p : Profile) : Nat := kField p.cellKws * p.tol.toNat

/-- `W_L = CELL_KWL.K * TOL`. -/
def winLong (p : Profile) : Nat := kField p.cellKwl * p.tol.toNat

/-- `EOF_THR = EOF_KS.K * TS + EOF_KW.K * TOL`. -/
def eofThr (p : Profile) : Nat := kField p.eofKs * p.ts.toNat + kField p.eofKw * p.tol.toNat

/-! ## The register index map -/

/-- The fifteen profile registers (10_state.md R29). -/
inductive ProfileReg where
  | ts | tl | tol | minb | preCtl | preKref | preKwin | sbCtl | sbKwin | cellKws | cellKwl | cellLvl
  | eofKs | eofKw | hdrK
deriving DecidableEq, Repr

/-- The six read-only status views (10_state.md R46 to R50). -/
inductive StatusReg where
  | decStatus | decAccLo | decAccHi | decPending | encStatus | encRepeats
deriving DecidableEq, Repr

/-- The 22 assigned registers of the register space (20_memory.md R53). -/
inductive CfgReg where
  | profile (r : ProfileReg)
  | capacity
  | status (v : StatusReg)
deriving DecidableEq, Repr

/-- The index of a register (10_state.md R29, R46 to R50). -/
def cfgIndex : CfgReg → BitVec 8
  | .profile .ts => 0x00#8
  | .profile .tl => 0x01#8
  | .profile .tol => 0x02#8
  | .profile .minb => 0x03#8
  | .profile .preCtl => 0x04#8
  | .profile .preKref => 0x05#8
  | .profile .preKwin => 0x06#8
  | .profile .sbCtl => 0x07#8
  | .profile .sbKwin => 0x08#8
  | .profile .cellKws => 0x09#8
  | .profile .cellKwl => 0x0A#8
  | .profile .cellLvl => 0x0B#8
  | .profile .eofKs => 0x0C#8
  | .profile .eofKw => 0x0D#8
  | .profile .hdrK => 0x0E#8
  | .capacity => 0x10#8
  | .status .decStatus => 0x20#8
  | .status .decAccLo => 0x21#8
  | .status .decAccHi => 0x22#8
  | .status .decPending => 0x23#8
  | .status .encStatus => 0x24#8
  | .status .encRepeats => 0x25#8

/-- Every assigned register, in index order (10_state.md R29, R46 to R50). -/
def allCfgRegs : List CfgReg :=
  [.profile .ts, .profile .tl, .profile .tol, .profile .minb, .profile .preCtl, .profile .preKref,
    .profile .preKwin, .profile .sbCtl, .profile .sbKwin, .profile .cellKws, .profile .cellKwl,
    .profile .cellLvl, .profile .eofKs, .profile .eofKw, .profile .hdrK] ++
  [.capacity, .status .decStatus, .status .decAccLo, .status .decAccHi, .status .decPending,
    .status .encStatus, .status .encRepeats]

/-- The register at an index; `none` for an unassigned index (10_state.md R51). -/
def cfgRegAt (a : BitVec 8) : Option CfgReg := allCfgRegs.find? fun r => decide (cfgIndex r = a)

/-- `WMASK`, the writable bits of a profile register (43_register_access.md R118). -/
def wmask : ProfileReg → Word
  | .ts => 0xFFFFFFFF#32
  | .tl => 0xFFFFFFFF#32
  | .tol => 0xFFFFFFFF#32
  | .minb => 0x0000007F#32
  | .preCtl => 0x00000003#32
  | .preKref => 0x0000FFFF#32
  | .preKwin => 0x0000FFFF#32
  | .sbCtl => 0x00000003#32
  | .sbKwin => 0x0000FFFF#32
  | .cellKws => 0x0000FFFF#32
  | .cellKwl => 0x0000FFFF#32
  | .cellLvl => 0x00000007#32
  | .eofKs => 0x0000FFFF#32
  | .eofKw => 0x0000FFFF#32
  | .hdrK => 0x0000FFFF#32

/-- The stored word of a profile register. -/
def profGet (p : Profile) : ProfileReg → Word
  | .ts => p.ts
  | .tl => p.tl
  | .tol => p.tol
  | .minb => p.minb
  | .preCtl => p.preCtl
  | .preKref => p.preKref
  | .preKwin => p.preKwin
  | .sbCtl => p.sbCtl
  | .sbKwin => p.sbKwin
  | .cellKws => p.cellKws
  | .cellKwl => p.cellKwl
  | .cellLvl => p.cellLvl
  | .eofKs => p.eofKs
  | .eofKw => p.eofKw
  | .hdrK => p.hdrK

/-- The bank with one profile register holding `v`. -/
def profSet (p : Profile) (r : ProfileReg) (v : Word) : Profile :=
  match r with
  | .ts => { p with ts := v }
  | .tl => { p with tl := v }
  | .tol => { p with tol := v }
  | .minb => { p with minb := v }
  | .preCtl => { p with preCtl := v }
  | .preKref => { p with preKref := v }
  | .preKwin => { p with preKwin := v }
  | .sbCtl => { p with sbCtl := v }
  | .sbKwin => { p with sbKwin := v }
  | .cellKws => { p with cellKws := v }
  | .cellKwl => { p with cellKwl := v }
  | .cellLvl => { p with cellLvl := v }
  | .eofKs => { p with eofKs := v }
  | .eofKw => { p with eofKw := v }
  | .hdrK => { p with hdrK := v }

end Sys2Proof.Machine
end

