-- ==== Sys2Proof/Machine/Ops.lean ====
section
/-! DEFINITION. The named operations over the state: answering a response, ending a command ILLEGAL (the
block's one exceptional outcome, 60_exceptions.md R119, R121), drawing a free value, the waveform buffer, and
reading a register of the register space. -/

namespace Sys2Proof.Machine

/-! ## Updates -/

/-- The state with another decoder. -/
def setDec (dec : Decoder) (s : State) : State := { s with dec := dec }

/-- The state with another encoder. -/
def setEnc (enc : Encoder) (s : State) : State := { s with enc := enc }

/-- The state with another profile bank. -/
def setProf (prof : Profile) (s : State) : State := { s with prof := prof }

/-- The state with `ENC.RUNNING` written (10_state.md R27). -/
def setRunning (b : Bool) (s : State) : State := { s with enc := { s.enc with running := b } }

/-- The state with what is left at the command port. -/
def setInput (rest : List Input) (s : State) : State := { s with input := rest }

/-- `n` free values have been drawn: the next ones are other draws (log 5). -/
def addDraws (n : Nat) (s : State) : State := { s with draws := s.draws + n }

/-! ## Responses -/

/-- `respond(status, flags, data...)`: the command ends with this response (00_scope.md section 5,
30_encoding.md R72). -/
def respond (r : Response) (s : State) : State := { s with output := s.output ++ responseWords r }

/-- `raise Illegal(info)`: the command ends with status ILLEGAL, its response the header alone, and no
other state changes (60_exceptions.md R121). -/
def raiseIllegal (opc : BitVec 8) (s : State) : State := respond { status := .illegal, echo := opc } s

/-! ## The waveform buffer -/

/-- `WAVE[i]`, `none` outside the buffer (20_memory.md R53). -/
def waveRead (wave : List Element) (i : BitVec 8) : Option Element := wave[i.toNat]?

/-- `WAVE[0..len-1]` written with `elems`, the rest unchanged (41_encoder.md R104). -/
def waveLoad (elems wave : List Element) : List Element := elems ++ wave.drop elems.length

/-! ## Reading the register space -/

/-- The numeric encoding of `DEC.STEP` (10_state.md R18). -/
def stepCode : DecStep → BitVec 2
  | .idle => 0#2
  | .foundPreamble => 1#2
  | .awaitingBitHalf => 2#2
  | .classifyingBitHalf => 3#2

/-- `DEC_STATUS`: STEP in `[1:0]`, COUNT in `[14:8]`, other bits 0 (10_state.md R46). -/
def decStatusWord (d : Decoder) : Word := 0#17 ++ d.count ++ 0#6 ++ stepCode d.step

/-- `ENC_STATUS`: RUNNING in `[0]`, CURSOR in `[15:8]`, LEN in `[23:16]`, other bits 0 (10_state.md R49). -/
def encStatusWord (e : Encoder) : Word := 0#8 ++ e.len ++ e.cursor ++ 0#7 ++ BitVec.ofBool e.running

/-- A status view. `DEC_PENDING` outside ClassifyingBitHalf is the free value `draw` (10_state.md R46 to
R50; log 5). -/
def statusRead (s : State) (draw : Word) : StatusReg → Word
  | .decStatus => decStatusWord s.dec
  | .decAccLo => loWord s.dec.acc
  | .decAccHi => hiWord s.dec.acc
  | .decPending => if s.dec.step = .classifyingBitHalf then s.dec.pending else draw
  | .encStatus => encStatusWord s.enc
  | .encRepeats => s.enc.repeats

/-- `read(A)` of 43_register_access.md R116, for an assigned register. -/
def cfgRead (s : State) (draw : Word) : CfgReg → Word
  | .profile r => profGet s.prof r
  | .capacity => s.cap.setWidth 32
  | .status v => statusRead s draw v

/-- How many free values `cfgRead` uses: one for `DEC_PENDING` outside ClassifyingBitHalf, else none. -/
def cfgDraws (s : State) : CfgReg → Nat
  | .profile _ => 0
  | .capacity => 0
  | .status .decStatus => 0
  | .status .decAccLo => 0
  | .status .decAccHi => 0
  | .status .decPending => if s.dec.step = .classifyingBitHalf then 0 else 1
  | .status .encStatus => 0
  | .status .encRepeats => 0

end Sys2Proof.Machine
end

