-- ==== Sys2Proof/Machine/BitReversal.lean ====
section
/-! DEFINITION. The `reverse_bits` unit and the command REVB (00_scope.md R14, 42_bit_reversal.md). -/

namespace Sys2Proof.Machine

/-- The sum of `v[w-1-i] * 2^i` for `i` below `m` (00_scope.md R14). -/
def reverseSum (v : Key) (w : Nat) : Nat → Nat
  | 0 => 0
  | m + 1 => reverseSum v w m + (v.getLsbD (w - 1 - m)).toNat * 2 ^ m

/-- `reverse_bits(v, w)`: the sum over `i` in `0..w-1` (00_scope.md R14). -/
def reverseBits (v : Key) (w : Nat) : Key := BitVec.ofNat 64 (reverseSum v w w)

/-- REVB (42_bit_reversal.md R112). -/
def execRevb (width : Nat) (value : Key) (s : State) : Host.Outcome State Fault Refusal :=
  if 64 < width then .next (raiseIllegal 0x20#8 s)
  else
    let r := reverseBits value width
    .next (respond { status := .ok, echo := 0x20#8, data := [loWord r, hiWord r] } s)

end Sys2Proof.Machine
end

