-- ==== Sys2Proof/Machine/Decoder.lean ====
section
/-! DEFINITION. The PWM pulse decoder, with its timing classifier and frame-boundary detector, and the
commands FEED and DRESET (40_decoder.md). -/

namespace Sys2Proof.Machine

/-! ## Timing classifier and frame-boundary detector -/

/-- `is_short(d)` (40_decoder.md R81). -/
def isShort (p : Profile) (d : Word) : Bool := within d.toNat p.ts.toNat (winShort p)

/-- `is_long(d)` (40_decoder.md R81). -/
def isLong (p : Profile) (d : Word) : Bool := within d.toNat p.tl.toNat (winLong p)

/-- `classify(h1, h2)`: (short, long) is 0, tested first; (long, short) is 1 (40_decoder.md R82). -/
def classify (p : Profile) (h1 h2 : Word) : Option Bool :=
  if isShort p h1 && isLong p h2 then some false
  else if isLong p h1 && isShort p h2 then some true
  else none

/-- `preamble_match(l, d)` (40_decoder.md R83). -/
def preambleMatch (p : Profile) (l : Level) (d : Word) : Bool :=
  l == preLvl p && within d.toNat (preRef p) (preWin p)

/-- `start_match(l, d)` (40_decoder.md R84). -/
def startMatch (p : Profile) (l : Level) (d : Word) : Bool :=
  l == sbLvl p && within d.toNat (sbRef p) (sbWin p)

/-- `is_eof(d)`: strictly above `EOF_THR` (40_decoder.md R85). -/
def isEof (p : Profile) (d : Word) : Bool := decide (eofThr p < d.toNat)

/-! ## The decoder's step, 40_decoder.md R88 to R93 -/

/-- An emitted frame: the pair `(KEY, BITS)` (40_decoder.md R86, R94). -/
structure Frame where
  key : Key
  bits : BitVec 7
deriving DecidableEq, Repr

/-- What one pulse makes of the decoder: `(DEC', emit, bit)` (40_decoder.md R88). -/
structure Fed where
  dec : Decoder
  emit : Option Frame := none
  bit : Option Bool := none
deriving DecidableEq, Repr

/-- The decoder in Idle with `DEC.ACC` and `DEC.COUNT` cleared: the frame is discarded (40_decoder.md R91
to R93). -/
def discardFrame (dec : Decoder) : Decoder := { dec with step := .idle, acc := 0#64, count := 0#7 }

/-- Idle (40_decoder.md R89). -/
def fedIdle (p : Profile) (dec : Decoder) (l : Level) (d : Word) : Fed :=
  if preambleMatch p l d then { dec := { dec with step := .foundPreamble } } else { dec := dec }

/-- FoundPreamble (40_decoder.md R90). -/
def fedFoundPreamble (p : Profile) (dec : Decoder) (l : Level) (d : Word) : Fed :=
  if startMatch p l d then
    { dec := { dec with step := .awaitingBitHalf, acc := 0#64, count := 0#7 } }
  else if preHold p && preambleMatch p l d then { dec := dec }
  else { dec := { dec with step := .idle } }

/-- Frame completion: emitted when `DEC.COUNT >= MINB`, dropped otherwise (40_decoder.md R86). -/
def completeFrame (p : Profile) (dec : Decoder) : Fed :=
  { dec := { dec with step := .foundPreamble, acc := 0#64, count := 0#7 }
    emit := if minBits p ≤ dec.count.toNat then some { key := dec.acc, bits := dec.count } else none }

/-- AwaitingBitHalf (40_decoder.md R91). -/
def fedAwaitingBitHalf (p : Profile) (dec : Decoder) (l : Level) (d : Word) : Fed :=
  if isEof p d then completeFrame p dec
  else if cellEn p && l != cellL1 p then { dec := discardFrame dec }
  else { dec := { dec with step := .classifyingBitHalf, pending := d } }

/-- Bit append; a 65th bit discards the frame (40_decoder.md R93). -/
def appendBit (dec : Decoder) (b : Bool) : Fed :=
  if dec.count.toNat < Config.maxBits then
    { dec :=
        { dec with
          step := .awaitingBitHalf, acc := dec.acc * 2#64 + (BitVec.ofBool b).setWidth 64,
          count := dec.count + 1#7 }
      bit := some b }
  else { dec := discardFrame dec }

/-- ClassifyingBitHalf (40_decoder.md R92). -/
def fedClassifyingBitHalf (p : Profile) (dec : Decoder) (l : Level) (d : Word) : Fed :=
  if cellEn p && l != cellL2 p then { dec := discardFrame dec }
  else
    match classify p dec.pending d with
    | none => { dec := discardFrame dec }
    | some b => appendBit dec b

/-- `dec_step`: one transition per pulse, depending on nothing but the decoder and the profile
(40_decoder.md R88). -/
def decStep (p : Profile) (dec : Decoder) (l : Level) (d : Word) : Fed :=
  match dec.step with
  | .idle => fedIdle p dec l d
  | .foundPreamble => fedFoundPreamble p dec l d
  | .awaitingBitHalf => fedAwaitingBitHalf p dec l d
  | .classifyingBitHalf => fedClassifyingBitHalf p dec l d

/-! ## Commands -/

/-- The FEED response: EMIT with KEY and BITS, BITV with BIT (40_decoder.md R94, 30_encoding.md R75). -/
def feedResponse (emit : Option Frame) (bit : Option Bool) : Response :=
  let key := (emit.map Frame.key).getD 0#64
  { status := .ok, f0 := emit.isSome, f1 := bit.isSome, f2 := bit.getD false,
    rn := (emit.map Frame.bits).getD 0#7, echo := 0x01#8, data := [loWord key, hiWord key] }

/-- FEED (40_decoder.md R96). -/
def execFeed (level : Level) (duration : Word) (s : State) : Host.Outcome State Fault Refusal :=
  let r := decStep s.prof s.dec level duration
  .next (respond (feedResponse r.emit r.bit) (setDec r.dec s))

/-- DRESET: Idle, accumulator and count 0, `DEC.PENDING` unspecified, a free value (40_decoder.md R97;
log 5). -/
def execDreset (s : State) : Host.Outcome State Fault Refusal :=
  let dec := { step := .idle, acc := 0#64, count := 0#7, pending := Config.freeWord s.draws }
  .next (respond { status := .ok, echo := 0x02#8 } (addDraws 1 (setDec dec s)))

end Sys2Proof.Machine
end

