-- ==== Sys2Proof/Machine/Encoder.lean ====
section
/-! DEFINITION. The PWM waveform encoder and the commands ELOAD, EYIELD and ESTOP (41_encoder.md). -/

namespace Sys2Proof.Machine

/-! ## Waveform construction -/

/-- `len(N) = 2*N + 2`, exact (41_encoder.md R100). -/
def waveLen (n : Nat) : Nat := 2 * n + 2

/-- Element 0, the header gap: low, `sat_32(HDR_K.K * TS)` (41_encoder.md R101). -/
def headerGap (p : Profile) : Element :=
  { level := false, duration := sat32 (kField p.hdrK * p.ts.toNat) }

/-- Element 1, the start bit: a mark of the long unit (41_encoder.md R102). -/
def startBit (p : Profile) : Element := { level := true, duration := p.tl }

/-- The mark and the space of one key bit (41_encoder.md R103). -/
def bitCell (p : Profile) (b : Bool) : List Element :=
  if b then [{ level := true, duration := p.tl }, { level := false, duration := p.ts }]
  else [{ level := true, duration := p.ts }, { level := false, duration := p.tl }]

/-- The cells of the `n` low key bits, most significant first (41_encoder.md R103, 20_memory.md R56). -/
def bitCells (p : Profile) (key : Key) (n : Nat) : List Element :=
  (List.range n).flatMap fun j => bitCell p (key.getLsbD (n - 1 - j))

/-- `build(key, N)` (41_encoder.md R99). -/
def build (p : Profile) (key : Key) (n : Nat) : List Element :=
  headerGap p :: startBit p :: bitCells p key n

/-! ## Commands -/

/-- ELOAD (41_encoder.md R104), FAIL on capacity (R105). -/
def execEload (bitCount : Nat) (key : Key) (repeatCount : Word) (s : State) :
    Host.Outcome State Fault Refusal :=
  if s.cap.toNat < waveLen bitCount then
    .next (respond { status := .fail, echo := 0x10#8 } (setRunning false s))
  else
    let enc :=
      { wave := waveLoad (build s.prof key bitCount) s.enc.wave
        len := BitVec.ofNat 8 (waveLen bitCount), cursor := 0#8, repeats := repeatCount
        running := true }
    .next (respond { status := .ok, echo := 0x10#8 } (setEnc enc s))

/-- The encoder after an element is delivered: the next element, or the next pass (41_encoder.md R106). -/
def advance (e : Encoder) : Encoder :=
  if e.cursor.toNat + 1 = e.len.toNat then { e with cursor := 0#8, repeats := e.repeats - 1#32 }
  else { e with cursor := e.cursor + 1#8 }

/-- EYIELD (41_encoder.md R106). The idle marker's LEVEL is a free value (log 5); an element outside
`WAVE` does not exist (log 8). -/
def execEyield (s : State) : Host.Outcome State Fault Refusal :=
  if s.enc.repeats = 0#32 ∨ s.enc.running = false then
    let marker : Response :=
      { status := .ok, f0 := false, f1 := Config.freeLevel s.draws, echo := 0x12#8, data := [0#32] }
    .next (respond marker (addDraws 1 (setRunning false s)))
  else
    match waveRead s.enc.wave s.enc.cursor with
    | none => .fault .waveIndexOutside
    | some e =>
      let element : Response :=
        { status := .ok, f0 := true, f1 := e.level, echo := 0x12#8, data := [e.duration] }
      .next (respond element (setEnc (advance s.enc) s))

/-- ESTOP (41_encoder.md R107). -/
def execEstop (s : State) : Host.Outcome State Fault Refusal :=
  .next (respond { status := .ok, echo := 0x11#8 } (setRunning false s))

end Sys2Proof.Machine
end

