-- ==== Sys2Proof/Machine/RegisterAccess.lean ====
section
/-! DEFINITION. The commands CFGWR and CFGRD (43_register_access.md). -/

namespace Sys2Proof.Machine

/-- CFGWR: a profile register takes `V & WMASK(A)`; every other index is ILLEGAL (43_register_access.md
R115, R118). -/
def execCfgwr (index : BitVec 8) (value : Word) (s : State) : Host.Outcome State Fault Refusal :=
  match cfgRegAt index with
  | some (.profile r) =>
    .next (respond { status := .ok, echo := 0x30#8 } (setProf (profSet s.prof r (value &&& wmask r)) s))
  | some .capacity => .next (raiseIllegal 0x30#8 s)
  | some (.status _) => .next (raiseIllegal 0x30#8 s)
  | none => .next (raiseIllegal 0x30#8 s)

/-- CFGRD: the register's 32 bits; an unassigned index is ILLEGAL (43_register_access.md R116). It changes
no state of the block; a read of an unspecified value counts one draw (20_memory.md R61; log 5). -/
def execCfgrd (index : BitVec 8) (s : State) : Host.Outcome State Fault Refusal :=
  match cfgRegAt index with
  | some r =>
    let value := cfgRead s (Config.freeWord s.draws) r
    .next (respond { status := .ok, echo := 0x31#8, data := [value] } (addDraws (cfgDraws s r) s))
  | none => .next (raiseIllegal 0x31#8 s)

end Sys2Proof.Machine
end

