-- ==== Sys2Proof/Machine/Dispatch.lean ====
section
/-! DEFINITION. One arm per command, each one direct call of its meaning (30_encoding.md R69). -/

namespace Sys2Proof.Machine

def exec (i : Instr) (s : State) : Host.Outcome State Fault Refusal :=
  match i with
  | .feed level duration => Sys2Proof.Machine.execFeed level duration s
  | .dreset => Sys2Proof.Machine.execDreset s
  | .eload bitCount key repeatCount => Sys2Proof.Machine.execEload bitCount key repeatCount s
  | .estop => Sys2Proof.Machine.execEstop s
  | .eyield => Sys2Proof.Machine.execEyield s
  | .revb width value => Sys2Proof.Machine.execRevb width value s
  | .cfgwr index value => Sys2Proof.Machine.execCfgwr index value s
  | .cfgrd index => Sys2Proof.Machine.execCfgrd index s

end Sys2Proof.Machine
end

