-- ==== Sys2Proof/Machine/Command.lean ====
section
/-! DEFINITION. Executing the command of a header and its argument words (60_exceptions.md R120, R121, R124). -/

namespace Sys2Proof.Machine

/-- Run the command of a header and its argument words: its meaning, or ILLEGAL where the decoder finds none
(60_exceptions.md R120, R121). -/
def runCommand (h : Word) (args : List Word) (s : State) : Host.Outcome State Fault Refusal :=
  match decode h args with
  | .instr i => exec i s
  | .illegal _ => .next (raiseIllegal (hdrOpc h) s)

end Sys2Proof.Machine
end

