-- ==== Sys2Proof/Machine/Port.lean ====
section
/-! DEFINITION. The command port: how a command is taken from what the host has sent (30_encoding.md R67, R71;
20_memory.md R59, R62), and the reset input (70_reset_and_hazards.md R133 to R136). -/

namespace Sys2Proof.Machine

/-- What the port holds for the next step. -/
inductive Fetched where
  /-- No whole command: the block waits (20_memory.md R59, 60_exceptions.md R132; log 7). -/
  | wait
  /-- The reset input, with what follows it (70_reset_and_hazards.md R133). -/
  | reset (rest : List Input)
  /-- A header with all its argument words, and what follows them (30_encoding.md R71). -/
  | command (h : Word) (args : List Word) (rest : List Input)
deriving DecidableEq, Repr

/-- Read `k` more argument words of header `h`, `got` being read already. A reset before the last of them
loses the command in progress (70_reset_and_hazards.md R133). -/
def takeArgs (h : Word) : Nat → List Word → List Input → Fetched
  | 0, got, q => .command h got q
  | k + 1, got, .word w :: q => takeArgs h k (got ++ [w]) q
  | _ + 1, _, .reset _ :: q => .reset q
  | _ + 1, _, [] => .wait

/-- The next thing at the port: a header and exactly the `k` words its `OPC` takes, even when the header is
malformed (30_encoding.md R71). -/
def fetch : List Input → Fetched
  | [] => .wait
  | .reset _ :: q => .reset q
  | .word h :: q => takeArgs h (argCount h) [] q

/-- The `cap` waveform elements after a reset input: unspecified, so free values, drawn from `draws` on
(70_reset_and_hazards.md R135; log 6). -/
def freeWave (draws cap : Nat) : List Element :=
  (List.range cap).map fun i =>
    { level := Config.freeLevel (draws + i), duration := Config.freeWord (draws + i) }

/-- The reset input (70_reset_and_hazards.md R133 to R136): decoder, encoder and profile registers as after
power-on, `CAP` unchanged (10_state.md R45). `DEC.PENDING` and every `WAVE[i]` are free values (log 6). -/
def applyReset (s : State) : State :=
  { s with
    dec :=
      { step := .idle, acc := 0#64, count := 0#7, pending := Config.freeWord (s.draws + s.cap.toNat) }
    enc :=
      { wave := freeWave s.draws s.cap.toNat, len := 0#8, cursor := 0#8, repeats := 0#32,
        running := false }
    prof := Profile.zero
    draws := s.draws + s.cap.toNat + 1 }

/-- The host sends more: command words and reset pulses queue up behind what has arrived
(20_memory.md R62, 70_reset_and_hazards.md R146). An act of the outside world, not a step of the block. -/
def hostSend (more : List Input) (s : State) : State := { s with input := s.input ++ more }

end Sys2Proof.Machine
end

