-- ==== Sys2Proof/Machine/Step.lean ====
section
/-! DEFINITION. One step of the block: nothing while no whole command has arrived, the reset input, or one
command with its response (20_memory.md R59, R62; 60_exceptions.md R119 to R124; 70_reset_and_hazards.md R133). -/

namespace Sys2Proof.Machine

/-- One step (20_memory.md R62). -/
def step (s : State) : Host.Outcome State Fault Refusal :=
  match fetch s.input with
  | .wait => .next s
  | .reset rest => .next (applyReset (setInput rest s))
  | .command h args rest => runCommand h args (setInput rest s)

/-- `s` with the command whose bits are the low `nbits` bits of `w` first at the command port, whole, so that
the next step runs exactly it (log 9). -/
def State.withFetchWord (s : State) (nbits w : Nat) : State :=
  { s with input := (tableWords nbits w).map Input.word ++ s.input }

end Sys2Proof.Machine
end

