-- ==== Sys2Proof/Safety.lean ====
section
/-! DEFINITION. What holds of the block in every state a run reaches (the spec's invariants 10_state.md R20, R22,
R24, R25, R28; 00_scope.md R7; 43_register_access.md R118), the states that are "after reset", and what it is to
stop. -/

namespace Sys2Proof.Machine

/-- `CAP` is legal: 2..130 (00_scope.md R7). -/
abbrev CapLegal (cap : BitVec 8) : Prop :=
  Config.capMin ≤ cap.toNat ∧ cap.toNat ≤ Config.capMax

/-- The decoder invariant (10_state.md R22) with the bound of R20. -/
abbrev DecoderInv (d : Decoder) : Prop :=
  d.count.toNat ≤ 64 ∧
  (d.step = .idle ∨ d.step = .foundPreamble → d.acc = 0#64 ∧ d.count = 0#7) ∧
  (d.step = .awaitingBitHalf ∨ d.step = .classifyingBitHalf → d.acc.toNat < 2 ^ d.count.toNat)

/-- The encoder invariant (10_state.md R23, R24, R25, R28). -/
abbrev EncoderInv (cap : BitVec 8) (e : Encoder) : Prop :=
  e.wave.length = cap.toNat ∧ e.len.toNat ≤ cap.toNat ∧
  (0 < e.len.toNat → e.cursor.toNat < e.len.toNat) ∧
  (e.running = true → 2 ≤ e.len.toNat)

/-- Reserved bits of the profile registers are 0 (43_register_access.md R118), register by register in index
order. -/
abbrev ProfileInv (p : Profile) : Prop :=
  ([ProfileReg.ts, .tl, .tol, .minb, .preCtl, .preKref, .preKwin, .sbCtl, .sbKwin, .cellKws, .cellKwl,
    .cellLvl, .eofKs, .eofKw, .hdrK].all fun r => profGet p r &&& ~~~(wmask r) == 0#32) = true

/-- The invariant of the block. -/
abbrev State.Inv (s : State) : Prop :=
  CapLegal s.cap ∧ DecoderInv s.dec ∧ EncoderInv s.cap s.enc ∧ ProfileInv s.prof

/-- What the spec says of a state right after reset, and no more: `DEC.PENDING` and the waveform elements are
any values (70_reset_and_hazards.md R134 to R136). -/
abbrev State.AfterReset (s : State) : Prop :=
  s.dec.step = .idle ∧ s.dec.acc = 0#64 ∧ s.dec.count = 0#7 ∧
  s.enc.running = false ∧ s.enc.len = 0#8 ∧ s.enc.cursor = 0#8 ∧ s.enc.repeats = 0#32 ∧
  s.enc.wave.length = s.cap.toNat ∧ s.prof = Profile.zero

/-- The step of `s` does not stop: it answers a next state. -/
abbrev State.Goes (s : State) : Prop := ∃ t, step s = .next t

/-- Two states that differ at most in what the spec leaves unspecified and unread: `DEC.PENDING` outside
ClassifyingBitHalf, and the waveform elements from `ENC.LEN` on (10_state.md R21, R24;
70_reset_and_hazards.md R135). -/
abbrev State.Alike (s t : State) : Prop :=
  t.dec.step = s.dec.step ∧ t.dec.acc = s.dec.acc ∧ t.dec.count = s.dec.count ∧
  (s.dec.step = .classifyingBitHalf → t.dec.pending = s.dec.pending) ∧
  t.enc.len = s.enc.len ∧ t.enc.cursor = s.enc.cursor ∧ t.enc.repeats = s.enc.repeats ∧
  t.enc.running = s.enc.running ∧ t.enc.wave.length = s.enc.wave.length ∧
  (∀ k : Nat, k < s.enc.len.toNat → t.enc.wave[k]? = s.enc.wave[k]?) ∧
  t.prof = s.prof ∧ t.cap = s.cap ∧ t.input = s.input ∧ t.output = s.output ∧ t.draws = s.draws

/-! ## Words the statements use -/

/-- `d` is less than `win` away from `ref`, on either side: the strict window of 00_scope.md R13, said without
subtraction. -/
abbrev Near (d ref win : Nat) : Prop := d < ref + win ∧ ref < d + win

/-- The number of data words in a command's OK response (30_encoding.md R69). -/
def okDataWords : Instr → Nat
  | .feed _ _ => 2
  | .dreset => 0
  | .eload _ _ _ => 0
  | .estop => 0
  | .eyield => 1
  | .revb _ _ => 2
  | .cfgwr _ _ => 0
  | .cfgrd _ => 1

/-- The commands of a list executed one after another, stopping at the first that stops (20_memory.md R62). -/
def execAll : List Instr → State → Host.Outcome State Fault Refusal
  | [], s => .next s
  | i :: is, s =>
    match exec i s with
    | .next t => execAll is t
    | .fault r => .fault r
    | .refused r => .refused r

/-- `n` steps, stopping at the first that stops. -/
def stepN : Nat → State → Host.Outcome State Fault Refusal
  | 0, s => .next s
  | n + 1, s =>
    match step s with
    | .next t => stepN n t
    | .fault r => .fault r
    | .refused r => .refused r

/-- The FEED that reports an element as a pulse (70_reset_and_hazards.md R146). -/
def feedOf (e : Element) : Instr := .feed e.level e.duration

/-- The response words of a valid EYIELD that delivers `e` (41_encoder.md R106, 30_encoding.md R72). -/
def yieldWords (e : Element) : List Word :=
  [if e.level then 0x12000300#32 else 0x12000100#32, e.duration]

/-- The frames `(KEY, BITS)` that a sequence of FEED responses reports: three words each, `EMIT` in bit 8 and
`BITS` in bits `[22:16]` of the header, the key low word first (30_encoding.md R72, R75). -/
def framesIn : List Word → List (Key × Nat)
  | h :: lo :: hi :: rest =>
    if h.getLsbD 8 then (hi ++ lo, (h.extractLsb' 16 7).toNat) :: framesIn rest else framesIn rest
  | _ => []

end Sys2Proof.Machine
end

