-- ==== Sys2Proof/Certificates/Slice0/Obligations.lean ====
section
/-! DEFINITION. What is claimed of the model, each statement from the rules of spec/ its docstring names. -/

open Sys2Proof Sys2Proof.Machine

/-! ## Encoding -/

/-- 30_encoding.md R68, R69, R74: a well-formed command, written as words at the port in front of anything,
is taken whole and decodes to itself, every operand at every value its field admits. -/
def Obligations.DecodeOfEncodeIsTheCommand : Prop :=
  ∀ (i : Instr) (rest : List Input), i.WellFormed →
    ∃ h args, encode i = h :: args ∧
      fetch ((encode i).map Input.word ++ rest) = .command h args rest ∧ decode h args = .instr i

/-- 30_encoding.md R68, R70: the other direction: words that decode to a command are the words of that
command, and it is well formed. -/
def Obligations.EncodeOfDecodeIsTheWords : Prop :=
  ∀ (h : Word) (args : List Word) (i : Instr), decode h args = .instr i →
    i.WellFormed ∧ encode i = h :: args

/-- 30_encoding.md R70, R74: each header selects a command exactly by the mask and match words of R70, and its
operands are assembled as R74 says. -/
def Obligations.HeaderSelectsByMaskAndMatch : Prop :=
  ∀ (h x y z : Word),
    (decode h [x] = .instr (.feed (h.getLsbD 8) x) ↔ h &&& 0xFFFFFEFF#32 = 0x00000001#32) ∧
    (decode h [] = .instr .dreset ↔ h &&& 0xFFFFFFFF#32 = 0x00000002#32) ∧
    (decode h [x, y, z] = .instr (.eload (h.toNat / 2 ^ 16 % 2 ^ 7) (y ++ x) z) ↔
      h &&& 0xFF80FFFF#32 = 0x00000010#32) ∧
    (decode h [] = .instr .estop ↔ h &&& 0xFFFFFFFF#32 = 0x00000011#32) ∧
    (decode h [] = .instr .eyield ↔ h &&& 0xFFFFFFFF#32 = 0x00000012#32) ∧
    (decode h [x, y] = .instr (.revb (h.toNat / 2 ^ 16 % 2 ^ 7) (y ++ x)) ↔
      h &&& 0xFF80FFFF#32 = 0x00000020#32) ∧
    (decode h [x] = .instr (.cfgwr (BitVec.ofNat 8 (h.toNat / 2 ^ 24)) x) ↔
      h &&& 0x00FFFFFF#32 = 0x00000030#32) ∧
    (decode h [] = .instr (.cfgrd (BitVec.ofNat 8 (h.toNat / 2 ^ 24))) ↔
      h &&& 0x00FFFFFF#32 = 0x00000031#32)

/-- 95_test_vectors.md: command words written out there are the commands it names. -/
def Obligations.WrittenOutWordsDecode : Prop :=
  decode 0x00000101#32 [0x000002BC#32] = .instr (.feed true 700#32) ∧
  decode 0x00000002#32 [] = .instr .dreset ∧
  decode 0x00180010#32 [0x00A1B2C3#32, 0#32, 1#32] = .instr (.eload 24 0xA1B2C3#64 1#32) ∧
  decode 0x00000011#32 [] = .instr .estop ∧
  decode 0x00000012#32 [] = .instr .eyield ∧
  decode 0x00400020#32 [0x89ABCDEF#32, 0x01234567#32] = .instr (.revb 64 0x0123456789ABCDEF#64) ∧
  decode 0x0E000030#32 [0x12345678#32] = .instr (.cfgwr 0x0E#8 0x12345678#32) ∧
  decode 0x25000031#32 [] = .instr (.cfgrd 0x25#8) ∧
  decode 0x00000102#32 [] = .illegal .malformedHeader ∧
  decode 0x00050013#32 [] = .illegal .unknownOpcode

/-! ## The step and the command port -/

/-- 20_memory.md R62, 30_encoding.md R71: when a header with all its argument words is first at the port and
decodes to a command, the step is that command's execution, those words taken from the port. -/
def Obligations.StepRunsTheDecodedCommand : Prop :=
  ∀ (s : State) (h : Word) (args : List Word) (rest : List Input) (i : Instr),
    s.input = (h :: args).map Input.word ++ rest → decode h args = .instr i →
    step s = exec i { s with input := rest }

/-- 30_encoding.md R70, R71, R76; 60_exceptions.md R120, R121: an unknown opcode, or a known one with a bad
masked bit, takes its words from the port, is answered with the header alone, `STATUS` 2 and the `OPC` echoed,
and changes nothing else. -/
def Obligations.UndecodableCommandIsIllegal : Prop :=
  ∀ (s : State) (h : Word) (args : List Word) (rest : List Input),
    s.input = (h :: args).map Input.word ++ rest →
    ((∀ o, opcodeCode o ≠ h.extractLsb' 0 8) ∧ args = [] ∨
      ∃ o, opcodeCode o = h.extractLsb' 0 8 ∧ args.length = opcodeArgs o ∧
        h &&& opcodeMask o ≠ opcodeMatch o) →
    step s = .next
      { s with input := rest, output := s.output ++ [h.extractLsb' 0 8 ++ 0#20 ++ 2#4] }

/-- 20_memory.md R59: a partial command is no command: while the words of the first command have not all
arrived, the step changes nothing. That the block then steps at all is the model's choice (log 7). -/
def Obligations.PartialCommandWaits : Prop :=
  ∀ (s : State), s.input = [] ∨
      (∃ h args, s.input = (h :: args).map Input.word ∧ args.length < argCount h) →
    step s = .next s

/-- 20_memory.md R62: the words of a sequence of well-formed commands, sent to the port, are executed one
command a step, in their order, and what the host sent after them is left. -/
def Obligations.CommandsRunInOrder : Prop :=
  ∀ (is : List Instr) (s t : State), (∀ i ∈ is, i.WellFormed) → execAll is s = .next t →
    stepN is.length { s with input := (is.flatMap encode).map Input.word ++ s.input } = .next t

/-- 70_reset_and_hazards.md R133 to R136 with log 6: a reset, at the front of the port or before the last word
of a command, loses that command without a response and leaves the block as after reset. -/
def Obligations.ResetInputResetsTheBlock : Prop :=
  ∀ (s : State) (lost ignored : List Word) (rest : List Input),
    s.input = lost.map Input.word ++ Input.reset ignored :: rest →
    (∀ h args, lost = h :: args → args.length < argCount h) →
    ∃ t, step s = .next t ∧ t.AfterReset ∧ t.cap = s.cap ∧ t.input = rest ∧ t.output = s.output

/-- 70_reset_and_hazards.md R134 to R136: what reset leaves, at every capacity; the unspecified
`DEC.PENDING` and `WAVE` elements are left out. -/
def Obligations.PowerOnStateIsAfterReset : Prop :=
  ∀ (cap : BitVec 8), (State.resetWith cap).AfterReset ∧ (State.resetWith cap).cap = cap ∧
    (CapLegal cap → (State.resetWith cap).Inv)

/-- `State.reset` is a block of the reference capacity 50, which is the model's choice (log 2), with nothing at
the port; the values it names for `DEC.PENDING` and `WAVE` (log 3, log 4) are left out. -/
def Obligations.ResetMeetsTheInvariant : Prop :=
  State.reset.Inv ∧ State.reset.AfterReset ∧ State.reset.cap = 50#8 ∧ State.reset.input = [] ∧
    State.reset.output = []

/-- 70_reset_and_hazards.md R136: what CFGRD reads after reset, at power-on with any capacity and after the
reset input in any state. -/
def Obligations.ReadsAfterReset : Prop :=
  ∀ (s : State),
    ((∃ cap, s = State.resetWith cap) ∨
      ∃ before rest, fetch before.input = .reset rest ∧ step before = .next s) →
    (∀ a : BitVec 8,
      (a.toNat ≤ 0x0E ∨ a = 0x20#8 ∨ a = 0x21#8 ∨ a = 0x22#8 ∨ a = 0x24#8 ∨ a = 0x25#8) →
      exec (.cfgrd a) s = .next { s with output := s.output ++ [0x31000000#32, 0#32] }) ∧
    exec (.cfgrd 0x10#8) s =
      .next { s with output := s.output ++ [0x31000000#32, BitVec.ofNat 32 s.cap.toNat] } ∧
    ∃ t w, exec (.cfgrd 0x23#8) s = .next t ∧ t.output = s.output ++ [0x31000000#32, w]

/-- 70_reset_and_hazards.md R137, for every state that is as after reset, whatever its unspecified values. -/
def Obligations.BehaviourBeforeConfiguration : Prop :=
  ∀ (s : State), s.AfterReset →
    (∀ l d, exec (.feed l d) s = .next { s with output := s.output ++ [0x01000000#32, 0#32, 0#32] }) ∧
    (∃ t w, exec .eyield s = .next t ∧ t.enc = s.enc ∧ t.output = s.output ++ [w, 0#32] ∧
      (w = 0x12000000#32 ∨ w = 0x12000200#32)) ∧
    (∀ n key rep, 2 * n + 2 ≤ s.cap.toNat →
      ∃ t, exec (.eload n key rep) s = .next t ∧ t.enc.running = true ∧
        t.enc.len.toNat = 2 * n + 2 ∧ t.output = s.output ++ [0x10000000#32] ∧
        ∀ i, i < 2 * n + 2 → ∃ e, t.enc.wave[i]? = some e ∧ e.duration = 0#32)

/-! ## Invariants and safety of the whole block -/

/-- 10_state.md R20, R22, R24, R25, R28, 43_register_access.md R118: every step keeps the invariant. -/
def Obligations.EveryStepKeepsTheInvariant : Prop :=
  ∀ (s t : State), s.Inv → step s = .next t → t.Inv

/-- 60_exceptions.md R119, R126: no step of a state that meets the invariant stops: every outcome is a
status in a response. -/
def Obligations.NoStepStops : Prop := ∀ (s : State), s.Inv → s.Goes

/-- 10_state.md R45, 70_reset_and_hazards.md R133: no step, not even a reset, changes the capacity, and the
response words already answered stay. That all responses are kept is the model's choice (log 1). -/
def Obligations.StepKeepsCapacityAndPastResponses : Prop :=
  ∀ (s t : State), step s = .next t → t.cap = s.cap ∧ ∃ more, t.output = s.output ++ more

/-- 10_state.md R21, 70_reset_and_hazards.md R135: the unspecified state cannot be observed: from two states
that differ at most there, a step answers the same responses and two such states again. -/
def Obligations.UnspecifiedStateIsNotObservable : Prop :=
  ∀ (s₁ s₂ t₁ : State), s₁.Inv → s₁.Alike s₂ → step s₁ = .next t₁ →
    ∃ t₂, step s₂ = .next t₂ ∧ t₁.Alike t₂

/-- 20_memory.md R55, 10_state.md R27: only a successful ELOAD writes the waveform buffer or sets
`ENC.RUNNING`; else the step took the reset input, whose effect on the buffer is the model's choice (log 6). -/
def Obligations.OnlyEloadWritesWaveOrSetsRunning : Prop :=
  ∀ (s t : State), step s = .next t →
    (t.enc.wave ≠ s.enc.wave ∨ s.enc.running = false ∧ t.enc.running = true) →
    (∃ rest, fetch s.input = .reset rest) ∨
    ∃ h args rest n key rep, fetch s.input = .command h args rest ∧
      decode h args = .instr (.eload n key rep) ∧ 2 * n + 2 ≤ s.cap.toNat

/-- 10_state.md R19 to R21, 43_register_access.md R115, R117, 41_encoder.md R104, R106, R107, 42_bit_reversal.md
R112: only FEED, DRESET and the reset input change the decoder; only CFGWR and the reset input change the
profile. -/
def Obligations.WhoChangesDecoderAndProfile : Prop :=
  ∀ (s t : State), step s = .next t →
    (t.dec ≠ s.dec →
      (∃ rest, fetch s.input = .reset rest) ∨
      ∃ h args rest, fetch s.input = .command h args rest ∧
        (decode h args = .instr .dreset ∨ ∃ l d, decode h args = .instr (.feed l d))) ∧
    (t.prof ≠ s.prof →
      (∃ rest, fetch s.input = .reset rest) ∨
      ∃ h args rest a v, fetch s.input = .command h args rest ∧
        decode h args = .instr (.cfgwr a v) ∧ a.toNat ≤ 0x0E)

/-- 30_encoding.md R73, R72: every command the port gives ends with one response: header bits `[7:4]`, `[15:11]`
and `[23]` 0, its `OPC` echoed; OK with the data words of R69; FAIL only for an ELOAD on capacity; ILLEGAL only
for the causes of 60_exceptions.md R120; no data word without OK. Only FEED and EYIELD answer `F0` and `F1`,
only FEED `F2` and `RN`. -/
def Obligations.EveryCommandAnswersOneResponse : Prop :=
  ∀ (s t : State) (h : Word) (args : List Word) (rest : List Input),
    fetch s.input = .command h args rest → step s = .next t →
    ∃ r data, t.output = s.output ++ r :: data ∧
      r.extractLsb' 4 4 = 0#4 ∧ r.extractLsb' 11 5 = 0#5 ∧ r.getLsbD 23 = false ∧
      r.extractLsb' 24 8 = h.extractLsb' 0 8 ∧
      (h.extractLsb' 0 8 ≠ 0x01#8 → r.getLsbD 10 = false ∧ r.extractLsb' 16 7 = 0#7) ∧
      (h.extractLsb' 0 8 ≠ 0x01#8 ∧ h.extractLsb' 0 8 ≠ 0x12#8 → r.extractLsb' 8 2 = 0#2) ∧
      ((r.extractLsb' 0 4 = 0#4 ∧ ∃ i, decode h args = .instr i ∧ data.length = okDataWords i) ∨
        (r.extractLsb' 0 4 = 1#4 ∧ data = [] ∧
          ∃ n key rep, decode h args = .instr (.eload n key rep) ∧ s.cap.toNat < 2 * n + 2) ∨
        (r.extractLsb' 0 4 = 2#4 ∧ data = [] ∧
          (decode h args = .illegal .unknownOpcode ∨ decode h args = .illegal .malformedHeader ∨
            (∃ w v, decode h args = .instr (.revb w v) ∧ 64 < w) ∨
            (∃ a v, decode h args = .instr (.cfgwr a v) ∧ 0x0E < a.toNat) ∨
            ∃ a, decode h args = .instr (.cfgrd a) ∧
              (a = 0x0F#8 ∨ 0x11 ≤ a.toNat ∧ a.toNat ≤ 0x1F ∨ 0x26 ≤ a.toNat))))

/-! ## Frames -/

/-- 40_decoder.md R96, R97: FEED and DRESET leave the encoder, the waveform buffer, the profile registers,
the capacity and what waits at the port unchanged. -/
def Obligations.DecoderCommandsFrame : Prop :=
  ∀ (i : Instr) (s t : State), (i = .dreset ∨ ∃ l d, i = .feed l d) → exec i s = .next t →
    t.enc = s.enc ∧ t.prof = s.prof ∧ t.cap = s.cap ∧ t.input = s.input

/-- 41_encoder.md R104 to R107: ELOAD, EYIELD and ESTOP leave the decoder, the profile registers, the
capacity and the port unchanged; EYIELD and ESTOP leave `WAVE` and `ENC.LEN`, ESTOP also the cursor and the
repeats; ELOAD leaves every element from `2N+2` on, and all of them when it fails. -/
def Obligations.EncoderCommandsFrame : Prop :=
  ∀ (i : Instr) (s t : State),
    (i = .estop ∨ i = .eyield ∨ ∃ n key rep, i = .eload n key rep) → exec i s = .next t →
    t.dec = s.dec ∧ t.prof = s.prof ∧ t.cap = s.cap ∧ t.input = s.input ∧
    (i = .estop ∨ i = .eyield → t.enc.wave = s.enc.wave ∧ t.enc.len = s.enc.len) ∧
    (i = .estop → t.enc.cursor = s.enc.cursor ∧ t.enc.repeats = s.enc.repeats ∧ t.draws = s.draws) ∧
    (∀ n key rep, i = .eload n key rep →
      ∀ k : Nat, 2 * n + 2 ≤ k ∨ s.cap.toNat < 2 * n + 2 → t.enc.wave[k]? = s.enc.wave[k]?)

/-- 42_bit_reversal.md R112, 43_register_access.md R115, R116, 20_memory.md R61: REVB, CFGRD and CFGWR leave
the decoder, the encoder, the capacity and the port unchanged; REVB and CFGRD leave every profile register, and
CFGWR every one but the register at its index. -/
def Obligations.RegisterCommandsFrame : Prop :=
  ∀ (i : Instr) (s t : State),
    ((∃ w v, i = .revb w v) ∨ (∃ a, i = .cfgrd a) ∨ ∃ a v, i = .cfgwr a v) → exec i s = .next t →
    t.dec = s.dec ∧ t.enc = s.enc ∧ t.cap = s.cap ∧ t.input = s.input ∧
    (((∃ w v, i = .revb w v) ∨ ∃ a, i = .cfgrd a) → t.prof = s.prof) ∧
    (∀ a v, i = .cfgwr a v →
      ∀ r, cfgIndex (.profile r) ≠ a → profGet t.prof r = profGet s.prof r)

/-! ## The decoder -/

/-- 40_decoder.md R81 with 00_scope.md R13: the short and the long test are the strict window test: an offset of
`win - 1` on either side matches, an offset of `win` does not. -/
def Obligations.ShortAndLongAreStrictWindows : Prop :=
  (∀ (p : Profile) (d : Word),
    (isShort p d = true ↔ Near d.toNat p.ts.toNat (p.cellKws.toNat % 2 ^ 16 * p.tol.toNat)) ∧
    (isLong p d = true ↔ Near d.toNat p.tl.toNat (p.cellKwl.toNat % 2 ^ 16 * p.tol.toNat))) ∧
  ∀ (ref win : Nat),
    (0 < win → within (ref + (win - 1)) ref win = true) ∧ within (ref + win) ref win = false ∧
    (0 < win → win ≤ ref + 1 → within (ref - (win - 1)) ref win = true) ∧
    (win ≤ ref → within (ref - win) ref win = false)

/-- 40_decoder.md R80: the quantities FEED computes, exactly, from the register words. -/
def Obligations.DerivedQuantitiesOfTheProfile : Prop :=
  ∀ (p : Profile),
    preRef p = p.preKref.toNat % 2 ^ 16 * p.ts.toNat ∧
    preWin p = p.preKwin.toNat % 2 ^ 16 * p.tol.toNat ∧
    sbRef p = (if p.sbCtl.toNat / 2 % 2 = 1 then p.tl.toNat else p.ts.toNat) ∧
    sbWin p = p.sbKwin.toNat % 2 ^ 16 * p.tol.toNat ∧
    winShort p = p.cellKws.toNat % 2 ^ 16 * p.tol.toNat ∧
    winLong p = p.cellKwl.toNat % 2 ^ 16 * p.tol.toNat ∧
    eofThr p = p.eofKs.toNat % 2 ^ 16 * p.ts.toNat + p.eofKw.toNat % 2 ^ 16 * p.tol.toNat

/-- 40_decoder.md R83, R89: FEED in Idle. -/
def Obligations.FeedInIdleSeeksThePreamble : Prop :=
  ∀ (s : State) (l : Level) (d : Word), s.dec.step = .idle →
    exec (.feed l d) s = .next
      { s with
        dec :=
          { s.dec with
            step :=
              if l = s.prof.preCtl.getLsbD 0 ∧ Near d.toNat (preRef s.prof) (preWin s.prof) then
                .foundPreamble
              else .idle }
        output := s.output ++ [0x01000000#32, 0#32, 0#32] }

/-- 40_decoder.md R84, R90: FEED in FoundPreamble: start bit, then a held preamble, else Idle. -/
def Obligations.FeedInFoundPreambleSeeksTheStartBit : Prop :=
  ∀ (s : State) (l : Level) (d : Word), s.dec.step = .foundPreamble →
    exec (.feed l d) s = .next
      { s with
        dec :=
          if l = s.prof.sbCtl.getLsbD 0 ∧ Near d.toNat (sbRef s.prof) (sbWin s.prof) then
            { s.dec with step := .awaitingBitHalf, acc := 0#64, count := 0#7 }
          else if s.prof.preCtl.getLsbD 1 = true ∧ l = s.prof.preCtl.getLsbD 0 ∧
              Near d.toNat (preRef s.prof) (preWin s.prof) then s.dec
          else { s.dec with step := .idle }
        output := s.output ++ [0x01000000#32, 0#32, 0#32] }

/-- 40_decoder.md R85, R86, R91: FEED in AwaitingBitHalf. Above `EOF_THR`, at either level, the frame ends: it is
emitted with its key and bit count when it has `MINB` bits, and dropped otherwise; either way the decoder is
cleared and in FoundPreamble. At or below `EOF_THR` the pulse is a first half, unless its level is checked and
wrong. -/
def Obligations.FeedInAwaitingBitHalf : Prop :=
  ∀ (s : State) (l : Level) (d : Word), s.dec.step = .awaitingBitHalf →
    (eofThr s.prof < d.toNat →
      exec (.feed l d) s = .next
        { s with
          dec := { s.dec with step := .foundPreamble, acc := 0#64, count := 0#7 }
          output :=
            s.output ++
              if s.prof.minb.toNat % 2 ^ 7 ≤ s.dec.count.toNat then
                [0x01#8 ++ 0#1 ++ s.dec.count ++ 0x0100#16, s.dec.acc.setWidth 32,
                  (s.dec.acc >>> 32).setWidth 32]
              else [0x01000000#32, 0#32, 0#32] }) ∧
    (d.toNat ≤ eofThr s.prof →
      exec (.feed l d) s = .next
        { s with
          dec :=
            if s.prof.cellLvl.getLsbD 0 = true ∧ l ≠ s.prof.cellLvl.getLsbD 1 then
              { s.dec with step := .idle, acc := 0#64, count := 0#7 }
            else { s.dec with step := .classifyingBitHalf, pending := d }
          output := s.output ++ [0x01000000#32, 0#32, 0#32] })

/-- 40_decoder.md R82, R92, R93: a FEED in ClassifyingBitHalf appends bit 0 for (short, long), else bit 1 for
(long, short); a wrong checked level, an unclassifiable cell and a 65th bit discard the frame. That
`DEC.PENDING` keeps its value in every next state, where 10_state.md R21 leaves it any value, is the model's
(DEDUCED, log 13), and no command shows it. -/
def Obligations.FeedOfASecondHalf : Prop :=
  ∀ (s : State) (l : Level) (d : Word), s.dec.step = .classifyingBitHalf →
    let ts := s.prof.ts.toNat
    let tl := s.prof.tl.toNat
    let zero := Near s.dec.pending.toNat ts (winShort s.prof) ∧ Near d.toNat tl (winLong s.prof)
    let one := Near s.dec.pending.toNat tl (winLong s.prof) ∧ Near d.toNat ts (winShort s.prof)
    let levelOk := s.prof.cellLvl.getLsbD 0 = true → l = s.prof.cellLvl.getLsbD 2
    (levelOk ∧ zero ∧ s.dec.count.toNat < 64 →
      exec (.feed l d) s = .next
        { s with
          dec :=
            { s.dec with
              step := .awaitingBitHalf, acc := BitVec.ofNat 64 (s.dec.acc.toNat * 2)
              count := BitVec.ofNat 7 (s.dec.count.toNat + 1) }
          output := s.output ++ [0x01000200#32, 0#32, 0#32] }) ∧
    (levelOk ∧ ¬zero ∧ one ∧ s.dec.count.toNat < 64 →
      exec (.feed l d) s = .next
        { s with
          dec :=
            { s.dec with
              step := .awaitingBitHalf, acc := BitVec.ofNat 64 (s.dec.acc.toNat * 2 + 1)
              count := BitVec.ofNat 7 (s.dec.count.toNat + 1) }
          output := s.output ++ [0x01000600#32, 0#32, 0#32] }) ∧
    (¬levelOk ∨ ¬zero ∧ ¬one ∨ 64 ≤ s.dec.count.toNat →
      exec (.feed l d) s = .next
        { s with
          dec := { s.dec with step := .idle, acc := 0#64, count := 0#7 }
          output := s.output ++ [0x01000000#32, 0#32, 0#32] })

/-- 40_decoder.md R94, R98: every FEED answers OK with two data words. `EMIT` is 1 exactly when a pulse above
`EOF_THR` ends a frame of at least `MINB` bits, with the frame's key and bit count, which the decoder then no
longer holds; `BITV` is 1 exactly when a bit was appended, `BIT` being that bit; without them these fields are
0. A frame end leaves the decoder in FoundPreamble, and a FEED in Idle leaves the accumulator and the count. -/
def Obligations.FeedEmitsOnlyAWholeFrame : Prop :=
  ∀ (s : State) (l : Level) (d : Word), ∃ t h lo hi,
    exec (.feed l d) s = .next t ∧ t.output = s.output ++ [h, lo, hi] ∧
    h.extractLsb' 0 4 = 0#4 ∧
    (h.getLsbD 8 = true ↔
      s.dec.step = .awaitingBitHalf ∧ eofThr s.prof < d.toNat ∧
      s.prof.minb.toNat % 2 ^ 7 ≤ s.dec.count.toNat) ∧
    (h.getLsbD 8 = true →
      h.extractLsb' 16 7 = s.dec.count ∧ hi ++ lo = s.dec.acc ∧ h.getLsbD 9 = false ∧
      t.dec.acc = 0#64 ∧ t.dec.count = 0#7) ∧
    (h.getLsbD 8 = false → h.extractLsb' 16 7 = 0#7 ∧ lo = 0#32 ∧ hi = 0#32) ∧
    (h.getLsbD 9 = true ↔ s.dec.step = .classifyingBitHalf ∧ t.dec.step = .awaitingBitHalf) ∧
    (h.getLsbD 9 = true → h.getLsbD 10 = t.dec.acc.getLsbD 0) ∧
    (h.getLsbD 9 = false → h.getLsbD 10 = false) ∧
    (s.dec.step = .awaitingBitHalf ∧ eofThr s.prof < d.toNat → t.dec.step = .foundPreamble) ∧
    (s.dec.step = .idle → t.dec.acc = s.dec.acc ∧ t.dec.count = s.dec.count)

/-- 40_decoder.md R88: what FEED makes of the decoder, and what it answers, depends on nothing but the
decoder, the profile registers and the pulse. -/
def Obligations.FeedDependsOnDecoderAndProfileOnly : Prop :=
  ∀ (s₁ s₂ : State) (l : Level) (d : Word), s₁.dec = s₂.dec → s₁.prof = s₂.prof →
    ∃ t₁ t₂ out, exec (.feed l d) s₁ = .next t₁ ∧ exec (.feed l d) s₂ = .next t₂ ∧
      t₁.dec = t₂.dec ∧ t₁.output = s₁.output ++ out ∧ t₂.output = s₂.output ++ out

/-- 40_decoder.md R97: DRESET, from every state; `DEC.PENDING` afterwards is unspecified. -/
def Obligations.DresetResetsTheDecoder : Prop :=
  ∀ (s : State), ∃ t, exec .dreset s = .next t ∧
    t.dec.step = .idle ∧ t.dec.acc = 0#64 ∧ t.dec.count = 0#7 ∧
    t.enc = s.enc ∧ t.prof = s.prof ∧ t.cap = s.cap ∧ t.input = s.input ∧
    t.output = s.output ++ [0x02000000#32]

/-! ## The encoder -/

/-- 41_encoder.md R101 to R104: a successful ELOAD, element by element; the elements from `2N+2` on are kept. -/
def Obligations.EloadBuildsTheWaveform : Prop :=
  ∀ (s : State) (n : Nat) (key : Key) (rep : Word), 2 * n + 2 ≤ s.cap.toNat →
    ∃ t, exec (.eload n key rep) s = .next t ∧
      t.enc.len.toNat = 2 * n + 2 ∧ t.enc.cursor = 0#8 ∧ t.enc.repeats = rep ∧
      t.enc.running = true ∧
      (∃ gap, t.enc.wave[0]? = some { level := false, duration := gap } ∧
        gap.toNat = min (s.prof.hdrK.toNat % 2 ^ 16 * s.prof.ts.toNat) (2 ^ 32 - 1)) ∧
      t.enc.wave[1]? = some { level := true, duration := s.prof.tl } ∧
      (∀ j, j < n →
        t.enc.wave[2 + 2 * j]? = some
          { level := true,
            duration := if key.getLsbD (n - 1 - j) then s.prof.tl else s.prof.ts } ∧
        t.enc.wave[3 + 2 * j]? = some
          { level := false,
            duration := if key.getLsbD (n - 1 - j) then s.prof.ts else s.prof.tl }) ∧
      (∀ k : Nat, 2 * n + 2 ≤ k → t.enc.wave[k]? = s.enc.wave[k]?) ∧
      t.dec = s.dec ∧ t.prof = s.prof ∧ t.cap = s.cap ∧ t.input = s.input ∧ t.draws = s.draws ∧
      t.output = s.output ++ [0x10000000#32]

/-- 60_exceptions.md R122, 41_encoder.md R105: an ELOAD that does not fit answers FAIL and writes
`ENC.RUNNING <- 0` and nothing else; above 64 bits it never fits a legal capacity (00_scope.md R7). No other
command answers FAIL. -/
def Obligations.EloadFailsOnCapacity : Prop :=
  ∀ (s : State),
    (∀ (n : Nat) (key : Key) (rep : Word),
      (s.cap.toNat < 2 * n + 2 ∨ CapLegal s.cap ∧ 64 < n) →
      exec (.eload n key rep) s = .next
        { s with
          enc := { s.enc with running := false }
          output := s.output ++ [0x10000001#32] }) ∧
    ∀ (i : Instr) (t : State) (h : Word) (data : List Word),
      exec i s = .next t → t.output = s.output ++ h :: data → h.extractLsb' 0 4 = 1#4 →
      ∃ n key rep, i = .eload n key rep ∧ s.cap.toNat < 2 * n + 2

/-- 41_encoder.md R106: EYIELD. With nothing to play it answers the idle marker, its level either bit, and clears
`ENC.RUNNING`; while playing it delivers the element at the cursor and moves on, to element 0 of the next pass
after the last one. The invariant rules out a cursor outside the buffer. -/
def Obligations.EyieldDeliversTheElement : Prop :=
  ∀ (s : State),
    (s.enc.repeats = 0#32 ∨ s.enc.running = false →
      ∃ t, exec .eyield s = .next t ∧ t.enc = { s.enc with running := false } ∧
        t.dec = s.dec ∧ t.prof = s.prof ∧ t.cap = s.cap ∧ t.input = s.input ∧
        (t.output = s.output ++ [0x12000000#32, 0#32] ∨
          t.output = s.output ++ [0x12000200#32, 0#32])) ∧
    (s.Inv → s.enc.repeats ≠ 0#32 → s.enc.running = true →
      ∃ e, s.enc.wave[s.enc.cursor.toNat]? = some e ∧
        exec .eyield s = .next
          { s with
            enc :=
              if s.enc.cursor.toNat + 1 = s.enc.len.toNat then
                { s.enc with cursor := 0#8, repeats := BitVec.ofNat 32 (s.enc.repeats.toNat - 1) }
              else { s.enc with cursor := BitVec.ofNat 8 (s.enc.cursor.toNat + 1) }
            output :=
              s.output ++ [if e.level then 0x12000300#32 else 0x12000100#32, e.duration] })

/-- EYIELD of an element outside `WAVE`, which the spec says does not exist, stops. The stop is the model's
choice (log 8), in states that `State.Inv` rules out. -/
def Obligations.EyieldOutsideTheBufferFaults : Prop :=
  ∀ (s : State), s.enc.repeats ≠ 0#32 → s.enc.running = true →
    s.enc.wave.length ≤ s.enc.cursor.toNat → exec .eyield s = .fault .waveIndexOutside

/-- 41_encoder.md R106, 43_register_access.md R117: what EYIELD delivers depends on the encoder alone, not on
the profile registers or the decoder: a loaded waveform keeps the durations it was built with. -/
def Obligations.EyieldDependsOnTheEncoderOnly : Prop :=
  ∀ (s₁ s₂ t₁ : State), s₁.enc = s₂.enc → s₁.enc.repeats ≠ 0#32 → s₁.enc.running = true →
    exec .eyield s₁ = .next t₁ →
    ∃ t₂ out, exec .eyield s₂ = .next t₂ ∧ t₁.enc = t₂.enc ∧
      t₁.output = s₁.output ++ out ∧ t₂.output = s₂.output ++ out

/-- 41_encoder.md R107: ESTOP clears `ENC.RUNNING` and nothing else. -/
def Obligations.EstopStopsPlayback : Prop :=
  ∀ (s : State), exec .estop s = .next
    { s with
      enc := { s.enc with running := false }
      output := s.output ++ [0x11000000#32] }

/-- 41_encoder.md R108, R109: after a successful ELOAD, whatever was playing, exactly `R * (2N+2)` EYIELDs are
valid and deliver the waveform `R` times in order; the next one answers the idle marker. -/
def Obligations.RepeatAccounting : Prop :=
  ∀ (s t : State) (n : Nat) (key : Key) (rep : Word), 2 * n + 2 ≤ s.cap.toNat →
    exec (.eload n key rep) s = .next t →
    ∃ u v, execAll (List.replicate (rep.toNat * (2 * n + 2)) .eyield) t = .next u ∧
      u.output =
        t.output ++ (List.replicate rep.toNat (build s.prof key n)).flatten.flatMap yieldWords ∧
      u.enc.running = true ∧ u.enc.repeats = 0#32 ∧
      exec .eyield u = .next v ∧ v.enc.running = false ∧
      (v.output = u.output ++ [0x12000000#32, 0#32] ∨ v.output = u.output ++ [0x12000200#32, 0#32])

/-- 41_encoder.md R111: the round trip. Under its conditions on the profile, a decoder in Idle that is fed the
waveform of `r + 1` repeats has reported `r` frames, each ended by the header of the repeat after it; the next
pulse above `EOF_THR`, of either level, reports the last one. Each frame is the key's low `N` bits with the
count `N`. -/
def Obligations.EncodeDecodeRoundTrip : Prop :=
  ∀ (s : State) (key : Key) (n r : Nat) (l : Level) (d : Word),
    s.dec.step = .idle → n ≤ 64 →
    0 < s.prof.ts.toNat → 0 < s.prof.tl.toNat → 0 < s.prof.tol.toNat →
    preambleMatch s.prof false (headerGap s.prof).duration = true →
    startMatch s.prof true s.prof.tl = true →
    isShort s.prof s.prof.ts = true → isLong s.prof s.prof.tl = true →
    (isLong s.prof s.prof.ts = false ∨ isShort s.prof s.prof.tl = false) →
    s.prof.tl.toNat ≤ eofThr s.prof → s.prof.ts.toNat ≤ eofThr s.prof →
    eofThr s.prof < (headerGap s.prof).duration.toNat →
    minBits s.prof ≤ n →
    (cellEn s.prof = false ∨ cellL1 s.prof = true ∧ cellL2 s.prof = false) →
    eofThr s.prof < d.toNat →
    ∃ v u out last,
      execAll ((List.replicate (r + 1) (build s.prof key n)).flatten.map feedOf) s = .next v ∧
      v.output = s.output ++ out ∧
      framesIn out = List.replicate r (BitVec.ofNat 64 (key.toNat % 2 ^ n), n) ∧
      exec (.feed l d) v = .next u ∧ u.output = v.output ++ last ∧
      framesIn last = [(BitVec.ofNat 64 (key.toNat % 2 ^ n), n)]

/-! ## Bit reversal -/

/-- 00_scope.md R14, 42_bit_reversal.md R112: REVB answers the value whose bit `i` is bit `W-1-i` of `V` for
`i` below `W`, and 0 above; a width above 64 is ILLEGAL. Nothing else changes. -/
def Obligations.RevbReversesTheLowBits : Prop :=
  ∀ (s : State) (w : Nat) (v : Key),
    (w ≤ 64 →
      ∃ r : Key, (∀ i, r.getLsbD i = (decide (i < w) && v.getLsbD (w - 1 - i))) ∧
        exec (.revb w v) s = .next
          { s with
            output := s.output ++ [0x20000000#32, r.setWidth 32, (r >>> 32).setWidth 32] }) ∧
    (64 < w → exec (.revb w v) s = .next { s with output := s.output ++ [0x20000002#32] })

/-- 42_bit_reversal.md R114: reversal is an involution on the low `W` bits. -/
def Obligations.ReversalIsAnInvolution : Prop :=
  ∀ (w : Nat) (v : Key), w ≤ 64 → (reverseBits (reverseBits v w) w).toNat = v.toNat % 2 ^ w

/-! ## Register access -/

/-- 43_register_access.md R115, R118; 10_state.md R29: CFGWR to each profile register, by its index, under its
write mask; to any index above 0x0E, read-only or unassigned, it is ILLEGAL and writes nothing. -/
def Obligations.CfgwrWritesEachProfileRegister : Prop :=
  ∀ (s : State) (v : Word),
    let ok (p : Profile) : Host.Outcome State Fault Refusal :=
      .next { s with prof := p, output := s.output ++ [0x30000000#32] }
    exec (.cfgwr 0x00#8 v) s = ok { s.prof with ts := v } ∧
    exec (.cfgwr 0x01#8 v) s = ok { s.prof with tl := v } ∧
    exec (.cfgwr 0x02#8 v) s = ok { s.prof with tol := v } ∧
    exec (.cfgwr 0x03#8 v) s = ok { s.prof with minb := v &&& 0x7F#32 } ∧
    exec (.cfgwr 0x04#8 v) s = ok { s.prof with preCtl := v &&& 3#32 } ∧
    exec (.cfgwr 0x05#8 v) s = ok { s.prof with preKref := v &&& 0xFFFF#32 } ∧
    exec (.cfgwr 0x06#8 v) s = ok { s.prof with preKwin := v &&& 0xFFFF#32 } ∧
    exec (.cfgwr 0x07#8 v) s = ok { s.prof with sbCtl := v &&& 3#32 } ∧
    exec (.cfgwr 0x08#8 v) s = ok { s.prof with sbKwin := v &&& 0xFFFF#32 } ∧
    exec (.cfgwr 0x09#8 v) s = ok { s.prof with cellKws := v &&& 0xFFFF#32 } ∧
    exec (.cfgwr 0x0A#8 v) s = ok { s.prof with cellKwl := v &&& 0xFFFF#32 } ∧
    exec (.cfgwr 0x0B#8 v) s = ok { s.prof with cellLvl := v &&& 7#32 } ∧
    exec (.cfgwr 0x0C#8 v) s = ok { s.prof with eofKs := v &&& 0xFFFF#32 } ∧
    exec (.cfgwr 0x0D#8 v) s = ok { s.prof with eofKw := v &&& 0xFFFF#32 } ∧
    exec (.cfgwr 0x0E#8 v) s = ok { s.prof with hdrK := v &&& 0xFFFF#32 } ∧
    ∀ a : BitVec 8, 0x0E < a.toNat →
      exec (.cfgwr a v) s = .next { s with output := s.output ++ [0x30000002#32] }

/-- 43_register_access.md R116; 10_state.md R29, R45, R47, R50: CFGRD of each profile register, of CAPACITY,
and of the accumulator and repeat views, by index; no state changes. -/
def Obligations.CfgrdReadsEachRegister : Prop :=
  ∀ (s : State),
    let ok (v : Word) : Host.Outcome State Fault Refusal :=
      .next { s with output := s.output ++ [0x31000000#32, v] }
    exec (.cfgrd 0x00#8) s = ok s.prof.ts ∧
    exec (.cfgrd 0x01#8) s = ok s.prof.tl ∧
    exec (.cfgrd 0x02#8) s = ok s.prof.tol ∧
    exec (.cfgrd 0x03#8) s = ok s.prof.minb ∧
    exec (.cfgrd 0x04#8) s = ok s.prof.preCtl ∧
    exec (.cfgrd 0x05#8) s = ok s.prof.preKref ∧
    exec (.cfgrd 0x06#8) s = ok s.prof.preKwin ∧
    exec (.cfgrd 0x07#8) s = ok s.prof.sbCtl ∧
    exec (.cfgrd 0x08#8) s = ok s.prof.sbKwin ∧
    exec (.cfgrd 0x09#8) s = ok s.prof.cellKws ∧
    exec (.cfgrd 0x0A#8) s = ok s.prof.cellKwl ∧
    exec (.cfgrd 0x0B#8) s = ok s.prof.cellLvl ∧
    exec (.cfgrd 0x0C#8) s = ok s.prof.eofKs ∧
    exec (.cfgrd 0x0D#8) s = ok s.prof.eofKw ∧
    exec (.cfgrd 0x0E#8) s = ok s.prof.hdrK ∧
    exec (.cfgrd 0x10#8) s = ok (BitVec.ofNat 32 s.cap.toNat) ∧
    exec (.cfgrd 0x21#8) s = ok (s.dec.acc.setWidth 32) ∧
    exec (.cfgrd 0x22#8) s = ok ((s.dec.acc >>> 32).setWidth 32) ∧
    exec (.cfgrd 0x25#8) s = ok s.enc.repeats

/-- 10_state.md R18, R46, R49: CFGRD of `DEC_STATUS` and `ENC_STATUS`: each field at its place, other bits 0. -/
def Obligations.CfgrdReadsTheStatusFields : Prop :=
  ∀ (s : State), ∃ x y : Word,
    exec (.cfgrd 0x20#8) s = .next { s with output := s.output ++ [0x31000000#32, x] } ∧
    x.toNat =
      (match s.dec.step with
        | .idle => 0 | .foundPreamble => 1 | .awaitingBitHalf => 2 | .classifyingBitHalf => 3) +
      2 ^ 8 * s.dec.count.toNat ∧
    exec (.cfgrd 0x24#8) s = .next { s with output := s.output ++ [0x31000000#32, y] } ∧
    y.toNat =
      (if s.enc.running then 1 else 0) + 2 ^ 8 * s.enc.cursor.toNat + 2 ^ 16 * s.enc.len.toNat

/-- 10_state.md R48: CFGRD of `DEC_PENDING` reads `DEC.PENDING` in ClassifyingBitHalf; in every other state it
completes with an unspecified word. -/
def Obligations.CfgrdOfPending : Prop :=
  ∀ (s : State), ∃ t w, exec (.cfgrd 0x23#8) s = .next t ∧
    t.output = s.output ++ [0x31000000#32, w] ∧
    (s.dec.step = .classifyingBitHalf → w = s.dec.pending) ∧
    t.dec = s.dec ∧ t.enc = s.enc ∧ t.prof = s.prof ∧ t.cap = s.cap ∧ t.input = s.input

/-- 10_state.md R51: CFGRD and CFGWR of an unassigned index are ILLEGAL and change nothing else. -/
def Obligations.UnassignedIndexIsIllegal : Prop :=
  ∀ (s : State) (a : BitVec 8) (v : Word),
    (a = 0x0F#8 ∨ 0x11 ≤ a.toNat ∧ a.toNat ≤ 0x1F ∨ 0x26 ≤ a.toNat) →
    exec (.cfgrd a) s = .next { s with output := s.output ++ [0x31000002#32] } ∧
    exec (.cfgwr a v) s = .next { s with output := s.output ++ [0x30000002#32] }

/-- 43_register_access.md R117, R118: what a CFGWR to any profile register wrote, the next CFGRD of it reads:
the value under the register's write mask. -/
def Obligations.CfgrdReadsWhatCfgwrWrote : Prop :=
  ∀ (s : State) (a : BitVec 8) (v : Word), a.toNat ≤ 0x0E →
    ∃ t u r, cfgIndex (.profile r) = a ∧ exec (.cfgwr a v) s = .next t ∧ exec (.cfgrd a) t = .next u ∧
      u.output = t.output ++ [0x31000000#32, v &&& wmask r]
end

