-- ==== Sys2Proof/Laws/Decode.lean ====
section
/-! SUPPORT. The header's fields against the header built from them, the opcode map, and what the decoder can
answer. -/

namespace Sys2Proof

/-! ## The opcode map -/

theorem opcodeOf_opcodeCode (o : Opcode) : opcodeOf (opcodeCode o) = some o := by
  cases o <;> decide

theorem opcodeOf_eq_some {c : BitVec 8} {o : Opcode} : opcodeOf c = some o ↔ opcodeCode o = c := by
  constructor
  · intro h
    simpa using List.find?_some h
  · rintro rfl
    exact opcodeOf_opcodeCode o

theorem opcodeOf_eq_none {c : BitVec 8} : opcodeOf c = none ↔ ∀ o, opcodeCode o ≠ c := by
  constructor
  · intro h o ho
    rw [opcodeOf_eq_some.mpr ho] at h
    cases h
  · intro h
    cases hc : opcodeOf c with
    | none => rfl
    | some o => exact absurd (opcodeOf_eq_some.mp hc) (h o)

/-- `k` is fixed by the opcode (30_encoding.md R71). -/
theorem argCount_of_opcode {h : Word} {o : Opcode} (ho : opcodeCode o = hdrOpc h) :
    argCount h = opcodeArgs o := by
  simp [argCount, opcodeOf_eq_some.mpr ho]

theorem argCount_of_unknown {h : Word} (hu : ∀ o, opcodeCode o ≠ hdrOpc h) : argCount h = 0 := by
  simp [argCount, opcodeOf_eq_none.mpr hu]

/-! ## Header fields -/

/-- Where each bit of a built header comes from (30_encoding.md R68). -/
theorem mkHeader_getLsbD (c : BitVec 8) (l : Level) (n : Nat) (a : BitVec 8) (i : Nat) :
    (mkHeader c l n a).getLsbD i =
      if i < 8 then c.getLsbD i
      else if i < 9 then l
      else if i < 16 then false
      else if i < 23 then (BitVec.ofNat 7 n).getLsbD (i - 16)
      else if i < 24 then false
      else a.getLsbD (i - 24) := by
  have h : (mkHeader c l n a).getLsbD i =
      BitVec.getLsbD (w := 8 + 1 + 7 + 7 + 1 + 8)
        (a ++ 0#1 ++ BitVec.ofNat 7 n ++ 0#7 ++ BitVec.ofBool l ++ c) i := rfl
  rw [h]
  simp only [BitVec.getLsbD_append, BitVec.getLsbD_zero]
  by_cases h1 : i < 8
  · simp [h1]
  · by_cases h2 : i < 9
    · obtain rfl : i = 8 := by omega
      simp
    · by_cases h3 : i < 16
      · simp [h1, h2, h3, show ¬i - 8 < 1 by omega, show i - 8 - 1 < 7 by omega]
      · by_cases h4 : i < 23
        · have h5 : i - 8 - 1 - 7 = i - 16 := by omega
          have h6 : i - 16 < 7 := by omega
          simp only [h1, h2, h3, h4, h5, h6, show ¬i - 8 < 1 by omega, show ¬i - 8 - 1 < 7 by omega,
            if_true, if_false]
        · by_cases h5 : i < 24
          · obtain rfl : i = 23 := by omega
            simp
          · simp [h1, h2, h3, h4, h5, show ¬i - 8 < 1 by omega, show ¬i - 8 - 1 < 7 by omega,
              show ¬i - 8 - 1 - 7 < 7 by omega, show ¬i - 8 - 1 - 7 - 7 < 1 by omega,
              show i - 8 - 1 - 7 - 7 - 1 = i - 24 by omega]

theorem hdrOpc_mkHeader (c : BitVec 8) (l : Level) (n : Nat) (a : BitVec 8) :
    hdrOpc (mkHeader c l n a) = c := by
  apply BitVec.eq_of_getLsbD_eq
  intro i hi
  simp [hdrOpc, mkHeader_getLsbD, hi]

theorem hdrL_mkHeader (c : BitVec 8) (l : Level) (n : Nat) (a : BitVec 8) :
    hdrL (mkHeader c l n a) = l := by
  rw [hdrL, mkHeader_getLsbD]
  simp

theorem hdrN_mkHeader (c : BitVec 8) (l : Level) {n : Nat} (hn : n < 128) (a : BitVec 8) :
    hdrN (mkHeader c l n a) = n := by
  have h : (mkHeader c l n a).extractLsb' 16 7 = BitVec.ofNat 7 n := by
    apply BitVec.eq_of_getLsbD_eq
    intro i hi
    rw [BitVec.getLsbD_extractLsb', mkHeader_getLsbD]
    simp [hi, show 16 + i < 23 by omega, show ¬16 + i < 8 by omega, show ¬16 + i < 9 by omega]
  rw [hdrN, h, BitVec.toNat_ofNat]
  omega

theorem hdrA_mkHeader (c : BitVec 8) (l : Level) (n : Nat) (a : BitVec 8) :
    hdrA (mkHeader c l n a) = a := by
  apply BitVec.eq_of_getLsbD_eq
  intro i hi
  rw [hdrA, BitVec.getLsbD_extractLsb', mkHeader_getLsbD]
  simp [hi, show ¬24 + i < 8 by omega, show ¬24 + i < 9 by omega, show ¬24 + i < 16 by omega,
    show ¬24 + i < 23 by omega]

/-! ## Words -/

theorem joinWords_getLsbD (lo hi : Word) (i : Nat) :
    (joinWords lo hi).getLsbD i = if i < 32 then lo.getLsbD i else hi.getLsbD (i - 32) := by
  have h : (joinWords lo hi).getLsbD i = BitVec.getLsbD (w := 32 + 32) (hi ++ lo) i := rfl
  rw [h, BitVec.getLsbD_append]

theorem joinWords_lo_hi (k : Key) : joinWords (loWord k) (hiWord k) = k := by
  apply BitVec.eq_of_getLsbD_eq
  intro i hi
  by_cases h : i < 32
  · simp [joinWords_getLsbD, loWord, h]
  · have h1 : i - 32 < 32 := by omega
    have h2 : 32 + (i - 32) = i := by omega
    simp [joinWords_getLsbD, hiWord, h, h1, h2]

theorem loWord_joinWords (lo hi : Word) : loWord (joinWords lo hi) = lo := by
  apply BitVec.eq_of_getLsbD_eq
  intro i h
  simp [joinWords_getLsbD, loWord, h]

theorem hiWord_joinWords (lo hi : Word) : hiWord (joinWords lo hi) = hi := by
  apply BitVec.eq_of_getLsbD_eq
  intro i h
  have h1 : ¬32 + i < 32 := by omega
  simp [joinWords_getLsbD, hiWord, h]

/-- A byte transport carries every word whole (20_memory.md R58). -/
theorem bytesWords_wordBytes (ws : List Word) : bytesWords (ws.flatMap wordBytes) = ws := by
  induction ws with
  | nil => rfl
  | cons w ws ih =>
    have hw : w.extractLsb' 24 8 ++ w.extractLsb' 16 8 ++ w.extractLsb' 8 8 ++ w.extractLsb' 0 8 = w := by
      apply BitVec.eq_of_getLsbD_eq (w := 8 + 8 + 8 + 8)
      intro i hi
      simp only [BitVec.getLsbD_append, BitVec.getLsbD_extractLsb']
      by_cases h1 : i < 8
      · simp [h1]
      · by_cases h2 : i < 16
        · have : i - 8 < 8 := by omega
          have : 8 + (i - 8) = i := by omega
          simp [*]
        · by_cases h3 : i < 24
          · have : ¬i - 8 < 8 := by omega
            have : i - 8 - 8 < 8 := by omega
            have : 16 + (i - 8 - 8) = i := by omega
            simp [*]
          · have : ¬i - 8 < 8 := by omega
            have : ¬i - 8 - 8 < 8 := by omega
            have : i - 8 - 8 - 8 < 8 := by omega
            have : 24 + (i - 8 - 8 - 8) = i := by omega
            simp [*]
    simp only [List.flatMap_cons, wordBytes, List.cons_append, List.nil_append, bytesWords]
    rw [ih]
    exact congrArg (· :: ws) hw

/-! ## What the decoder can answer -/

/-- A decoded command comes from a known opcode, a header that meets its mask and match words, and its operands
(30_encoding.md R70). -/
theorem decode_eq_instr {h : Word} {args : List Word} {i : Instr} :
    decode h args = .instr i ↔
      ∃ o, opcodeCode o = hdrOpc h ∧ h &&& opcodeMask o = opcodeMatch o ∧
        operands o h args = some i := by
  unfold decode
  constructor
  · intro hd
    split at hd
    · cases hd
    · rename_i o ho
      split at hd
      · rename_i hm
        split at hd
        · rename_i j hj
          cases hd
          exact ⟨o, opcodeOf_eq_some.mp ho, hm, hj⟩
        · cases hd
      · cases hd
  · rintro ⟨o, ho, hm, hi⟩
    simp [opcodeOf_eq_some.mpr ho, hm, hi]

/-- A header that meets an opcode's mask and match words carries that opcode (30_encoding.md R70). -/
theorem opcode_of_mask {h : Word} {o : Opcode} (hm : h &&& opcodeMask o = opcodeMatch o) :
    opcodeCode o = hdrOpc h := by
  apply BitVec.eq_of_getLsbD_eq
  intro i hi
  have hb := congrArg (fun w : Word => w.getLsbD i) hm
  simp only [BitVec.getLsbD_and] at hb
  rw [hdrOpc, BitVec.getLsbD_extractLsb']
  cases o <;> interval_cases i <;> simpa [opcodeMask, opcodeMatch, opcodeCode] using hb.symm

/-- The operands need exactly `k` argument words (30_encoding.md R69). -/
theorem operands_length {o : Opcode} {h : Word} {args : List Word} {i : Instr}
    (hi : operands o h args = some i) : args.length = opcodeArgs o := by
  cases o <;> simp only [operands] at hi <;> split at hi <;> first | rfl | cases hi

theorem operands_opcode {o : Opcode} {h : Word} {args : List Word} {i : Instr}
    (hi : operands o h args = some i) : instrOpcode i = o := by
  cases o <;> simp only [operands] at hi <;> split at hi <;> cases hi <;> rfl

/-- With exactly `k` argument words there are operands, so the port never meets `wrongArgCount`
(30_encoding.md R71; log 10). -/
theorem operands_isSome {o : Opcode} {h : Word} {args : List Word} (hk : args.length = opcodeArgs o) :
    (operands o h args).isSome := by
  match args, hk with
  | [], hk => cases o <;> first | rfl | cases hk
  | [_], hk => cases o <;> first | rfl | cases hk
  | [_, _], hk => cases o <;> first | rfl | cases hk
  | [_, _, _], hk => cases o <;> first | rfl | cases hk
  | _ :: _ :: _ :: _ :: _, hk => cases o <;> cases hk

end Sys2Proof
end

