-- ==== Sys2Proof/Laws/State.lean ====
section
/-! SUPPORT. What each named update does to each field of the state, one lemma per field, so that no later proof
unfolds a record update. -/

namespace Sys2Proof.Machine

@[simp] theorem setDec_dec (x : Decoder) (s : State) : (setDec x s).dec = x := rfl
@[simp] theorem setDec_enc (x : Decoder) (s : State) : (setDec x s).enc = s.enc := rfl
@[simp] theorem setDec_prof (x : Decoder) (s : State) : (setDec x s).prof = s.prof := rfl
@[simp] theorem setDec_cap (x : Decoder) (s : State) : (setDec x s).cap = s.cap := rfl
@[simp] theorem setDec_input (x : Decoder) (s : State) : (setDec x s).input = s.input := rfl
@[simp] theorem setDec_output (x : Decoder) (s : State) : (setDec x s).output = s.output := rfl
@[simp] theorem setDec_draws (x : Decoder) (s : State) : (setDec x s).draws = s.draws := rfl

@[simp] theorem setEnc_dec (x : Encoder) (s : State) : (setEnc x s).dec = s.dec := rfl
@[simp] theorem setEnc_enc (x : Encoder) (s : State) : (setEnc x s).enc = x := rfl
@[simp] theorem setEnc_prof (x : Encoder) (s : State) : (setEnc x s).prof = s.prof := rfl
@[simp] theorem setEnc_cap (x : Encoder) (s : State) : (setEnc x s).cap = s.cap := rfl
@[simp] theorem setEnc_input (x : Encoder) (s : State) : (setEnc x s).input = s.input := rfl
@[simp] theorem setEnc_output (x : Encoder) (s : State) : (setEnc x s).output = s.output := rfl
@[simp] theorem setEnc_draws (x : Encoder) (s : State) : (setEnc x s).draws = s.draws := rfl

@[simp] theorem setProf_dec (x : Profile) (s : State) : (setProf x s).dec = s.dec := rfl
@[simp] theorem setProf_enc (x : Profile) (s : State) : (setProf x s).enc = s.enc := rfl
@[simp] theorem setProf_prof (x : Profile) (s : State) : (setProf x s).prof = x := rfl
@[simp] theorem setProf_cap (x : Profile) (s : State) : (setProf x s).cap = s.cap := rfl
@[simp] theorem setProf_input (x : Profile) (s : State) : (setProf x s).input = s.input := rfl
@[simp] theorem setProf_output (x : Profile) (s : State) : (setProf x s).output = s.output := rfl
@[simp] theorem setProf_draws (x : Profile) (s : State) : (setProf x s).draws = s.draws := rfl

@[simp] theorem setRunning_dec (b : Bool) (s : State) : (setRunning b s).dec = s.dec := rfl
@[simp] theorem setRunning_enc (b : Bool) (s : State) : (setRunning b s).enc = { s.enc with running := b } := rfl
@[simp] theorem setRunning_prof (b : Bool) (s : State) : (setRunning b s).prof = s.prof := rfl
@[simp] theorem setRunning_cap (b : Bool) (s : State) : (setRunning b s).cap = s.cap := rfl
@[simp] theorem setRunning_input (b : Bool) (s : State) : (setRunning b s).input = s.input := rfl
@[simp] theorem setRunning_output (b : Bool) (s : State) : (setRunning b s).output = s.output := rfl
@[simp] theorem setRunning_draws (b : Bool) (s : State) : (setRunning b s).draws = s.draws := rfl

@[simp] theorem setInput_dec (q : List Input) (s : State) : (setInput q s).dec = s.dec := rfl
@[simp] theorem setInput_enc (q : List Input) (s : State) : (setInput q s).enc = s.enc := rfl
@[simp] theorem setInput_prof (q : List Input) (s : State) : (setInput q s).prof = s.prof := rfl
@[simp] theorem setInput_cap (q : List Input) (s : State) : (setInput q s).cap = s.cap := rfl
@[simp] theorem setInput_input (q : List Input) (s : State) : (setInput q s).input = q := rfl
@[simp] theorem setInput_output (q : List Input) (s : State) : (setInput q s).output = s.output := rfl
@[simp] theorem setInput_draws (q : List Input) (s : State) : (setInput q s).draws = s.draws := rfl

@[simp] theorem addDraws_dec (n : Nat) (s : State) : (addDraws n s).dec = s.dec := rfl
@[simp] theorem addDraws_enc (n : Nat) (s : State) : (addDraws n s).enc = s.enc := rfl
@[simp] theorem addDraws_prof (n : Nat) (s : State) : (addDraws n s).prof = s.prof := rfl
@[simp] theorem addDraws_cap (n : Nat) (s : State) : (addDraws n s).cap = s.cap := rfl
@[simp] theorem addDraws_input (n : Nat) (s : State) : (addDraws n s).input = s.input := rfl
@[simp] theorem addDraws_output (n : Nat) (s : State) : (addDraws n s).output = s.output := rfl
@[simp] theorem addDraws_draws (n : Nat) (s : State) : (addDraws n s).draws = s.draws + n := rfl

@[simp] theorem respond_dec (r : Response) (s : State) : (respond r s).dec = s.dec := rfl
@[simp] theorem respond_enc (r : Response) (s : State) : (respond r s).enc = s.enc := rfl
@[simp] theorem respond_prof (r : Response) (s : State) : (respond r s).prof = s.prof := rfl
@[simp] theorem respond_cap (r : Response) (s : State) : (respond r s).cap = s.cap := rfl
@[simp] theorem respond_input (r : Response) (s : State) : (respond r s).input = s.input := rfl
@[simp] theorem respond_output (r : Response) (s : State) : (respond r s).output = s.output ++ responseWords r := rfl
@[simp] theorem respond_draws (r : Response) (s : State) : (respond r s).draws = s.draws := rfl

@[simp] theorem hostSend_dec (q : List Input) (s : State) : (hostSend q s).dec = s.dec := rfl
@[simp] theorem hostSend_enc (q : List Input) (s : State) : (hostSend q s).enc = s.enc := rfl
@[simp] theorem hostSend_prof (q : List Input) (s : State) : (hostSend q s).prof = s.prof := rfl
@[simp] theorem hostSend_cap (q : List Input) (s : State) : (hostSend q s).cap = s.cap := rfl
@[simp] theorem hostSend_input (q : List Input) (s : State) : (hostSend q s).input = s.input ++ q := rfl
@[simp] theorem hostSend_output (q : List Input) (s : State) : (hostSend q s).output = s.output := rfl
@[simp] theorem hostSend_draws (q : List Input) (s : State) : (hostSend q s).draws = s.draws := rfl

@[simp] theorem raiseIllegal_dec (c : BitVec 8) (s : State) : (raiseIllegal c s).dec = s.dec := rfl
@[simp] theorem raiseIllegal_enc (c : BitVec 8) (s : State) : (raiseIllegal c s).enc = s.enc := rfl
@[simp] theorem raiseIllegal_prof (c : BitVec 8) (s : State) : (raiseIllegal c s).prof = s.prof := rfl
@[simp] theorem raiseIllegal_cap (c : BitVec 8) (s : State) : (raiseIllegal c s).cap = s.cap := rfl
@[simp] theorem raiseIllegal_input (c : BitVec 8) (s : State) : (raiseIllegal c s).input = s.input := rfl
@[simp] theorem raiseIllegal_output (c : BitVec 8) (s : State) : (raiseIllegal c s).output = s.output ++ responseWords { status := .illegal, echo := c } := rfl
@[simp] theorem raiseIllegal_draws (c : BitVec 8) (s : State) : (raiseIllegal c s).draws = s.draws := rfl

@[simp] theorem applyReset_cap (s : State) : (applyReset s).cap = s.cap := rfl
@[simp] theorem applyReset_input (s : State) : (applyReset s).input = s.input := rfl
@[simp] theorem applyReset_output (s : State) : (applyReset s).output = s.output := rfl
@[simp] theorem applyReset_prof (s : State) : (applyReset s).prof = Profile.zero := rfl
@[simp] theorem applyReset_draws (s : State) : (applyReset s).draws = s.draws + s.cap.toNat + 1 := rfl
@[simp] theorem applyReset_dec_step (s : State) : (applyReset s).dec.step = .idle := rfl
@[simp] theorem applyReset_dec_acc (s : State) : (applyReset s).dec.acc = 0#64 := rfl
@[simp] theorem applyReset_dec_count (s : State) : (applyReset s).dec.count = 0#7 := rfl
@[simp] theorem applyReset_enc_len (s : State) : (applyReset s).enc.len = 0#8 := rfl
@[simp] theorem applyReset_enc_cursor (s : State) : (applyReset s).enc.cursor = 0#8 := rfl
@[simp] theorem applyReset_enc_repeats (s : State) : (applyReset s).enc.repeats = 0#32 := rfl
@[simp] theorem applyReset_enc_running (s : State) : (applyReset s).enc.running = false := rfl

/-- The buffer keeps its `CAP` elements over a reset input (10_state.md R23). -/
@[simp] theorem applyReset_wave_length (s : State) : (applyReset s).enc.wave.length = s.cap.toNat := by
  simp [applyReset, freeWave]

end Sys2Proof.Machine
end

