-- ==== Sys2Proof/Laws/Ops.lean ====
section
/-! SUPPORT. What the shared operations do: windows, the register map, the response words, the waveform buffer,
bit reversal. -/

namespace Sys2Proof.Machine

/-! ## Registers -/

theorem cfgRegAt_cfgIndex (r : CfgReg) : cfgRegAt (cfgIndex r) = some r := by
  rcases r with r | _ | v
  · cases r <;> decide
  · decide
  · cases v <;> decide

theorem cfgRegAt_eq_some {a : BitVec 8} {r : CfgReg} : cfgRegAt a = some r ↔ cfgIndex r = a := by
  constructor
  · intro h
    simpa using List.find?_some h
  · rintro rfl
    exact cfgRegAt_cfgIndex r

theorem profGet_profSet_same (p : Profile) (r : ProfileReg) (v : Word) : profGet (profSet p r v) r = v := by
  cases r <;> rfl

theorem profGet_profSet_ne (p : Profile) {r q : ProfileReg} (v : Word) (h : q ≠ r) :
    profGet (profSet p r v) q = profGet p q := by
  cases r <;> cases q <;> first | rfl | exact absurd rfl h

/-- The profile registers are the indices 0x00 to 0x0E (10_state.md R29). -/
theorem cfgIndex_profile_le (r : ProfileReg) : (cfgIndex (.profile r)).toNat ≤ 0x0E := by
  cases r <;> decide

/-- Each index in 0x00 to 0x0E is a profile register (10_state.md R29). -/
theorem exists_profile_of_le {a : BitVec 8} (h : a.toNat ≤ 0x0E) : ∃ r, cfgIndex (.profile r) = a := by
  have all : ∀ n : Fin 15, ∃ r, cfgIndex (.profile r) = BitVec.ofNat 8 n.val := by
    intro n
    fin_cases n
    exacts [⟨.ts, rfl⟩, ⟨.tl, rfl⟩, ⟨.tol, rfl⟩, ⟨.minb, rfl⟩, ⟨.preCtl, rfl⟩, ⟨.preKref, rfl⟩,
      ⟨.preKwin, rfl⟩, ⟨.sbCtl, rfl⟩, ⟨.sbKwin, rfl⟩, ⟨.cellKws, rfl⟩, ⟨.cellKwl, rfl⟩,
      ⟨.cellLvl, rfl⟩, ⟨.eofKs, rfl⟩, ⟨.eofKw, rfl⟩, ⟨.hdrK, rfl⟩]
  obtain ⟨r, hr⟩ := all ⟨a.toNat, by omega⟩
  exact ⟨r, by rw [hr]; simp⟩

/-! ## The response words -/

/-- Where each bit of a response header comes from (30_encoding.md R72). -/
theorem responseHeader_getLsbD (r : Response) (i : Nat) :
    (responseHeader r).getLsbD i =
      if i < 4 then (statusCode r.status).getLsbD i
      else if i < 8 then false
      else if i < 9 then r.f0
      else if i < 10 then r.f1
      else if i < 11 then r.f2
      else if i < 16 then false
      else if i < 23 then r.rn.getLsbD (i - 16)
      else if i < 24 then false
      else r.echo.getLsbD (i - 24) := by
  have h : (responseHeader r).getLsbD i =
      BitVec.getLsbD (w := 8 + 1 + 7 + 5 + 1 + 1 + 1 + 4 + 4)
        (r.echo ++ 0#1 ++ r.rn ++ 0#5 ++ BitVec.ofBool r.f2 ++ BitVec.ofBool r.f1 ++ BitVec.ofBool r.f0 ++
          0#4 ++ statusCode r.status) i := rfl
  rw [h]
  simp only [BitVec.getLsbD_append, BitVec.getLsbD_zero]
  by_cases h1 : i < 11
  · obtain h2 | h2 | rfl | rfl | rfl : i < 4 ∨ 4 ≤ i ∧ i < 8 ∨ i = 8 ∨ i = 9 ∨ i = 10 := by omega
    · simp [h2]
    · simp [show ¬i < 4 by omega, show i - 4 < 4 by omega, h2]
    · simp
    · simp
    · simp
  · have e1 : ¬i < 4 := by omega
    have e2 : ¬i - 4 < 4 := by omega
    have e3 : ¬i - 4 - 4 < 1 := by omega
    have e4 : ¬i - 4 - 4 - 1 < 1 := by omega
    have e5 : ¬i - 4 - 4 - 1 - 1 < 1 := by omega
    have e6 : ¬i < 8 := by omega
    have e7 : ¬i < 9 := by omega
    have e8 : ¬i < 10 := by omega
    have e9 : i - 4 - 4 - 1 - 1 - 1 - 5 = i - 16 := by omega
    have e10 : i - 16 - 7 - 1 = i - 24 := by omega
    simp only [e1, e2, e3, e4, e5, e6, e7, e8, e9, e10, h1, if_false]
    obtain h2 | ⟨h2, h3⟩ | rfl | h3 : i < 16 ∨ 16 ≤ i ∧ i < 23 ∨ i = 23 ∨ 24 ≤ i := by omega
    · simp [h2, show i - 4 - 4 - 1 - 1 - 1 < 5 by omega]
    · simp [h3, show ¬i < 16 by omega, show ¬i - 4 - 4 - 1 - 1 - 1 < 5 by omega, show i - 16 < 7 by omega]
    · simp
    · simp [show ¬i < 16 by omega, show ¬i < 23 by omega, show ¬i < 24 by omega,
        show ¬i - 4 - 4 - 1 - 1 - 1 < 5 by omega, show ¬i - 16 < 7 by omega, show ¬i - 16 - 7 < 1 by omega]

theorem responseHeader_status (r : Response) :
    (responseHeader r).extractLsb' 0 4 = statusCode r.status := by
  apply BitVec.eq_of_getLsbD_eq
  intro i hi
  simp [responseHeader_getLsbD, hi]

theorem responseHeader_f0 (r : Response) : (responseHeader r).getLsbD 8 = r.f0 := by
  rw [responseHeader_getLsbD]
  simp

theorem responseHeader_f1 (r : Response) : (responseHeader r).getLsbD 9 = r.f1 := by
  rw [responseHeader_getLsbD]
  simp

theorem responseHeader_f2 (r : Response) : (responseHeader r).getLsbD 10 = r.f2 := by
  rw [responseHeader_getLsbD]
  simp

theorem responseHeader_rn (r : Response) : (responseHeader r).extractLsb' 16 7 = r.rn := by
  apply BitVec.eq_of_getLsbD_eq
  intro i hi
  have h : ∀ m, m ≤ 16 → ¬16 + i < m := fun m hm => by omega
  rw [BitVec.getLsbD_extractLsb', responseHeader_getLsbD]
  simp [hi, h, show 16 + i < 23 by omega]

theorem responseHeader_echo (r : Response) : (responseHeader r).extractLsb' 24 8 = r.echo := by
  apply BitVec.eq_of_getLsbD_eq
  intro i hi
  have h : ∀ m, m ≤ 24 → ¬24 + i < m := fun m hm => by omega
  rw [BitVec.getLsbD_extractLsb', responseHeader_getLsbD]
  simp [hi, h]

/-! ## The waveform buffer -/

theorem waveLoad_length {elems wave : List Element} (h : elems.length ≤ wave.length) :
    (waveLoad elems wave).length = wave.length := by
  simp only [waveLoad, List.length_append, List.length_drop]
  omega

/-- Loaded positions hold the loaded elements (41_encoder.md R104). -/
theorem waveLoad_loaded {elems wave : List Element} {k : Nat} (h : k < elems.length) :
    (waveLoad elems wave)[k]? = elems[k]? := by
  simp [waveLoad, List.getElem?_append, h]

/-- Every other position keeps its element (41_encoder.md R104). -/
theorem waveLoad_kept {elems wave : List Element} {k : Nat} (h : elems.length ≤ k) :
    (waveLoad elems wave)[k]? = wave[k]? := by
  simp only [waveLoad, List.getElem?_append, List.getElem?_drop]
  rw [if_neg (by omega)]
  congr 1
  omega

theorem bitCell_length (p : Profile) (b : Bool) : (bitCell p b).length = 2 := by
  cases b <;> rfl

/-- One more bit below puts one more cell behind (41_encoder.md R103). -/
theorem bitCells_succ (p : Profile) (key : Key) (n : Nat) :
    bitCells p key (n + 1) = bitCells p (key >>> 1) n ++ bitCell p (key.getLsbD 0) := by
  unfold bitCells
  rw [List.range_succ, List.flatMap_append]
  congr 1
  · apply List.flatMap_congr
    intro j hj
    have hj : j < n := by simpa using hj
    rw [BitVec.getLsbD_ushiftRight, show n + 1 - 1 - j = 1 + (n - 1 - j) by omega]
  · simp

/-- One more bit above puts one more cell in front (41_encoder.md R103). -/
theorem bitCells_succ' (p : Profile) (key : Key) (n : Nat) :
    bitCells p key (n + 1) = bitCell p (key.getLsbD n) ++ bitCells p key n := by
  unfold bitCells
  rw [List.range_succ_eq_map, List.flatMap_cons, List.flatMap_map]
  congr 1
  apply List.flatMap_congr
  intro j _
  rw [show n + 1 - 1 - (j + 1) = n - 1 - j by omega]

theorem bitCells_length (p : Profile) (key : Key) (n : Nat) : (bitCells p key n).length = 2 * n := by
  induction n with
  | zero => rfl
  | succ n ih => rw [bitCells_succ', List.length_append, ih, bitCell_length]; omega

/-- The two elements of key bit `n-1-j` (41_encoder.md R103). -/
theorem bitCells_getElem? (p : Profile) (key : Key) (n j : Nat) (h : j < n) :
    (bitCells p key n)[2 * j]? =
        some { level := true, duration := if key.getLsbD (n - 1 - j) then p.tl else p.ts } ∧
      (bitCells p key n)[2 * j + 1]? =
        some { level := false, duration := if key.getLsbD (n - 1 - j) then p.ts else p.tl } := by
  induction n generalizing j with
  | zero => omega
  | succ n ih =>
    rw [bitCells_succ']
    cases j with
    | zero => cases hb : key.getLsbD n <;> simp [bitCell, hb]
    | succ j =>
      rw [show n + 1 - 1 - (j + 1) = n - 1 - j by omega, show 2 * (j + 1) = 2 * j + 2 by omega,
        List.getElem?_append_right (by simp [bitCell_length]),
        List.getElem?_append_right (by simp [bitCell_length])]
      simpa [bitCell_length] using ih j (by omega)

/-- `len(N)` is the length of `build(key, N)` (41_encoder.md R99, R100). -/
theorem build_length (p : Profile) (key : Key) (n : Nat) : (build p key n).length = waveLen n := by
  simp [build, bitCells_length, waveLen]

/-! ## Bit reversal -/

theorem reverseSum_lt (v : Key) (w m : Nat) : reverseSum v w m < 2 ^ m := by
  induction m with
  | zero => simp [reverseSum]
  | succ m ih =>
    have : (v.getLsbD (w - 1 - m)).toNat ≤ 1 := Bool.toNat_le _
    have := Nat.mul_le_mul_right (2 ^ m) this
    rw [reverseSum, Nat.pow_succ]
    omega

/-- Bit `i` of the sum over `m` bits (00_scope.md R14). -/
theorem reverseSum_testBit (v : Key) (w m i : Nat) :
    (reverseSum v w m).testBit i = (decide (i < m) && v.getLsbD (w - 1 - i)) := by
  induction m with
  | zero => simp [reverseSum]
  | succ m ih =>
    rw [reverseSum, Nat.add_comm, Nat.mul_comm, Nat.testBit_two_pow_mul_add _ (reverseSum_lt v w m)]
    by_cases h : i < m
    · simp [h, ih, show i < m + 1 by omega]
    · by_cases hm : i = m
      · subst hm
        cases v.getLsbD (w - 1 - i) <;> simp
      · have h1 : ¬i < m + 1 := by omega
        obtain ⟨j, hj⟩ : ∃ j, i - m = j + 1 := ⟨i - m - 1, by omega⟩
        cases v.getLsbD (w - 1 - m) <;> simp [h, h1, hj, Nat.testBit_succ]

/-- Bit `i` of `reverse_bits(v, w)` (00_scope.md R14). -/
theorem reverseBits_getLsbD (v : Key) {w : Nat} (hw : w ≤ 64) (i : Nat) :
    (reverseBits v w).getLsbD i = (decide (i < w) && v.getLsbD (w - 1 - i)) := by
  simp only [reverseBits, BitVec.getLsbD_ofNat, reverseSum_testBit]
  by_cases h : i < w
  · simp [h, show i < 64 by omega]
  · simp [h]

end Sys2Proof.Machine
end

