-- ==== Sys2Proof/Laws/Decoder.lean ====
section
/-! SUPPORT. What the decoder's tests say, what its transitions are, and which words FEED answers. -/

namespace Sys2Proof.Machine

/-! ## Tests -/

/-- The window without subtraction: strict on both sides (00_scope.md R13). -/
theorem within_iff {d ref win : Nat} : within d ref win = true ↔ d < ref + win ∧ ref < d + win := by
  simp only [within, decide_eq_true_eq]
  omega

theorem kField_eq (r : Word) : kField r = r.toNat % 2 ^ 16 := by
  simp [kField, BitVec.extractLsb'_toNat]

theorem minBits_eq (p : Profile) : minBits p = p.minb.toNat % 2 ^ 7 := by
  simp [minBits, BitVec.extractLsb'_toNat]

theorem preambleMatch_iff {p : Profile} {l : Level} {d : Word} :
    preambleMatch p l d = true ↔
      l = preLvl p ∧ d.toNat < preRef p + preWin p ∧ preRef p < d.toNat + preWin p := by
  rw [preambleMatch, Bool.and_eq_true, beq_iff_eq, within_iff]

theorem startMatch_iff {p : Profile} {l : Level} {d : Word} :
    startMatch p l d = true ↔
      l = sbLvl p ∧ d.toNat < sbRef p + sbWin p ∧ sbRef p < d.toNat + sbWin p := by
  rw [startMatch, Bool.and_eq_true, beq_iff_eq, within_iff]

theorem isEof_iff {p : Profile} {d : Word} : isEof p d = true ↔ eofThr p < d.toNat := by
  rw [isEof, decide_eq_true_eq]

theorem isShort_iff {p : Profile} {d : Word} :
    isShort p d = true ↔ d.toNat < p.ts.toNat + winShort p ∧ p.ts.toNat < d.toNat + winShort p :=
  within_iff

theorem isLong_iff {p : Profile} {d : Word} :
    isLong p d = true ↔ d.toNat < p.tl.toNat + winLong p ∧ p.tl.toNat < d.toNat + winLong p :=
  within_iff

/-! ## Transitions -/

/-- The bit append in numbers (40_decoder.md R93). -/
theorem appendBit_of_lt {dec : Decoder} (b : Bool) (h : dec.count.toNat < 64) :
    appendBit dec b =
      { dec :=
          { dec with
            step := .awaitingBitHalf, acc := BitVec.ofNat 64 (dec.acc.toNat * 2 + b.toNat)
            count := BitVec.ofNat 7 (dec.count.toNat + 1) }
        bit := some b } := by
  have hacc : dec.acc * 2#64 + (BitVec.ofBool b).setWidth 64 =
      BitVec.ofNat 64 (dec.acc.toNat * 2 + b.toNat) := by
    apply BitVec.eq_of_toNat_eq
    cases b <;> simp
  have hcount : dec.count + 1#7 = BitVec.ofNat 7 (dec.count.toNat + 1) := by
    apply BitVec.eq_of_toNat_eq
    simp
  rw [appendBit, Config.maxBits, if_pos h, hacc, hcount]

/-- The 65th bit (40_decoder.md R93). -/
theorem appendBit_of_ge {dec : Decoder} (b : Bool) (h : 64 ≤ dec.count.toNat) :
    appendBit dec b = { dec := discardFrame dec } := by
  rw [appendBit, Config.maxBits, if_neg (by omega)]

/-- Everything one pulse can make of the decoder (40_decoder.md R89 to R93): it stays, finds a preamble, a start
bit, a frame end or a first half, appends a bit, or goes to Idle. -/
theorem decStep_cases (p : Profile) (dec : Decoder) (l : Level) (d : Word) :
    ((dec.step = .idle ∨ dec.step = .foundPreamble) ∧ decStep p dec l d = { dec := dec }) ∨
    (dec.step = .idle ∧ decStep p dec l d = { dec := { dec with step := .foundPreamble } }) ∨
    (dec.step = .foundPreamble ∧
      decStep p dec l d = { dec := { dec with step := .awaitingBitHalf, acc := 0#64, count := 0#7 } }) ∨
    (dec.step = .foundPreamble ∧ decStep p dec l d = { dec := { dec with step := .idle } }) ∨
    (dec.step = .awaitingBitHalf ∧ eofThr p < d.toNat ∧ decStep p dec l d = completeFrame p dec) ∨
    (dec.step = .awaitingBitHalf ∧ d.toNat ≤ eofThr p ∧
      decStep p dec l d = { dec := { dec with step := .classifyingBitHalf, pending := d } }) ∨
    (dec.step = .classifyingBitHalf ∧ dec.count.toNat < 64 ∧ ∃ b,
      classify p dec.pending d = some b ∧ decStep p dec l d = appendBit dec b) ∨
    ((dec.step = .awaitingBitHalf ∧ d.toNat ≤ eofThr p ∨ dec.step = .classifyingBitHalf) ∧
      decStep p dec l d = { dec := discardFrame dec }) := by
  unfold decStep
  cases hs : dec.step with
  | idle =>
    simp only [fedIdle]
    split <;> simp
  | foundPreamble =>
    simp only [fedFoundPreamble]
    split
    · simp
    · split <;> simp
  | awaitingBitHalf =>
    simp only [fedAwaitingBitHalf]
    split
    · rename_i h
      simp [isEof_iff.mp h]
    · rename_i h
      have h : d.toNat ≤ eofThr p := by simpa [isEof_iff] using h
      split <;> simp [h]
  | classifyingBitHalf =>
    simp only [fedClassifyingBitHalf]
    split
    · simp
    · split
      · simp
      · rename_i b hb
        by_cases hc : dec.count.toNat < 64
        · simp [hc, hb]
        · simp [appendBit_of_ge (dec := dec) b (Nat.le_of_not_lt hc)]

/-! ## Words -/

theorem loWord_eq (k : Key) : loWord k = k.setWidth 32 := by
  apply BitVec.eq_of_getLsbD_eq
  intro i hi
  simp [loWord, hi]

theorem hiWord_eq (k : Key) : hiWord k = (k >>> 32).setWidth 32 := by
  apply BitVec.eq_of_getLsbD_eq
  intro i hi
  simp [hiWord, hi]

/-- The FEED response with no frame and no bit (40_decoder.md R94). -/
theorem feedResponse_none : responseWords (feedResponse none none) = [0x01000000#32, 0#32, 0#32] := by
  decide

/-- The FEED response with a bit (40_decoder.md R94). -/
theorem feedResponse_bit (b : Bool) :
    responseWords (feedResponse none (some b)) =
      [if b then 0x01000600#32 else 0x01000200#32, 0#32, 0#32] := by
  cases b <;> decide

end Sys2Proof.Machine
end

