-- ==== Sys2Proof/Laws/Port.lean ====
section
/-! SUPPORT. What the port gives the next step, and what a step then is. -/

namespace Sys2Proof.Machine

/-- All argument words present: the command is taken, with what follows it (30_encoding.md R71). -/
theorem takeArgs_words (h : Word) (args : List Word) :
    ∀ (got : List Word) (rest : List Input),
      takeArgs h args.length got (args.map Input.word ++ rest) = .command h (got ++ args) rest := by
  induction args with
  | nil => intro got rest; simp [takeArgs]
  | cons w ws ih => intro got rest; simp [takeArgs, ih]

/-- Argument words missing: the block waits (20_memory.md R59). -/
theorem takeArgs_short (h : Word) (args : List Word) :
    ∀ (k : Nat) (got : List Word), args.length < k → takeArgs h k got (args.map Input.word) = .wait := by
  induction args with
  | nil => intro k got hk; cases k <;> simp_all [takeArgs]
  | cons w ws ih =>
    intro k got hk
    cases k with
    | zero => simp at hk
    | succ k => simpa [takeArgs] using ih k _ (by simpa using hk)

/-- A reset before the last argument word (70_reset_and_hazards.md R133). -/
theorem takeArgs_reset (h : Word) (args ignored : List Word) (rest : List Input) :
    ∀ (k : Nat) (got : List Word), args.length < k →
      takeArgs h k got (args.map Input.word ++ Input.reset ignored :: rest) = .reset rest := by
  induction args with
  | nil => intro k got hk; cases k <;> simp_all [takeArgs]
  | cons w ws ih =>
    intro k got hk
    cases k with
    | zero => simp at hk
    | succ k => simpa [takeArgs] using ih k _ (by simpa using hk)

/-- A whole command first at the port is taken (30_encoding.md R71). -/
theorem fetch_command {h : Word} {args : List Word} (rest : List Input) (hk : args.length = argCount h) :
    fetch ((h :: args).map Input.word ++ rest) = .command h args rest := by
  simp only [List.map_cons, List.cons_append, fetch]
  rw [← hk, takeArgs_words, List.nil_append]

/-- Everything `takeArgs` can answer with a command. -/
theorem takeArgs_eq_command {h h' : Word} {args : List Word} {rest : List Input} :
    ∀ {k : Nat} {got : List Word} {q : List Input}, takeArgs h k got q = .command h' args rest →
      h' = h ∧ ∃ ws, args = got ++ ws ∧ ws.length = k ∧ q = ws.map Input.word ++ rest := by
  intro k
  induction k with
  | zero =>
    intro got q hq
    simp only [takeArgs, Fetched.command.injEq] at hq
    obtain ⟨rfl, rfl, rfl⟩ := hq
    exact ⟨rfl, [], by simp⟩
  | succ k ih =>
    intro got q hq
    match q, hq with
    | .word w :: q, hq =>
      obtain ⟨rfl, ws, rfl, hl, rfl⟩ := ih (by simpa [takeArgs] using hq)
      exact ⟨rfl, w :: ws, by simp [hl]⟩

/-- Everything `fetch` can answer with a command: the header, exactly its `k` argument words, the rest. -/
theorem fetch_eq_command {q : List Input} {h : Word} {args : List Word} {rest : List Input}
    (hq : fetch q = .command h args rest) :
    args.length = argCount h ∧ q = (h :: args).map Input.word ++ rest := by
  match q, hq with
  | .word w :: q, hq =>
    obtain ⟨rfl, ws, rfl, hl, rfl⟩ := takeArgs_eq_command (by simpa [fetch] using hq)
    exact ⟨by simpa using hl, by simp⟩

/-- Everything a step that answers a next state can have done: waited, taken the reset input, executed a
decoded command, or answered ILLEGAL. -/
theorem step_cases {s t : State} (h : step s = .next t) :
    (fetch s.input = .wait ∧ t = s) ∨
    (∃ rest, fetch s.input = .reset rest ∧ t = applyReset (setInput rest s)) ∨
    (∃ w args rest i, fetch s.input = .command w args rest ∧ decode w args = .instr i ∧
      exec i (setInput rest s) = .next t) ∨
    ∃ w args rest e, fetch s.input = .command w args rest ∧ decode w args = .illegal e ∧
      t = raiseIllegal (hdrOpc w) (setInput rest s) := by
  unfold step at h
  split at h
  · rename_i hf
    exact .inl ⟨hf, by cases h; rfl⟩
  · rename_i rest hf
    exact .inr (.inl ⟨rest, hf, by cases h; rfl⟩)
  · rename_i w args rest hf
    unfold runCommand at h
    split at h
    · rename_i i hd
      exact .inr (.inr (.inl ⟨w, args, rest, i, hf, hd, h⟩))
    · rename_i e hd
      exact .inr (.inr (.inr ⟨w, args, rest, e, hf, hd, by cases h; rfl⟩))

end Sys2Proof.Machine
end

