-- ==== Sys2Proof/Laws/Exec.lean ====
section
/-! SUPPORT. Each meaning case by case, in the model's own operations, and the words of each response. -/

namespace Sys2Proof.Machine

/-! ## Response words -/

theorem okWords (c : BitVec 8) (data : List Word) :
    responseWords { status := .ok, echo := c, data := data } = (c ++ 0#24) :: data := by
  have h : responseHeader { status := .ok, echo := c, data := data } = c ++ 0#24 := by
    apply BitVec.eq_of_getLsbD_eq
    intro i hi
    rw [responseHeader_getLsbD,
      show BitVec.getLsbD (w := 32) (c ++ 0#24) i = BitVec.getLsbD (w := 8 + 24) (c ++ 0#24) i from rfl,
      BitVec.getLsbD_append]
    have hi : i < 32 := hi
    interval_cases i <;> simp [statusCode]
  rw [responseWords, h]

theorem illegalWords (c : BitVec 8) :
    responseWords { status := .illegal, echo := c } = [c ++ 0#20 ++ 2#4] := by
  have h : responseHeader { status := .illegal, echo := c } = c ++ 0#20 ++ 2#4 := by
    apply BitVec.eq_of_getLsbD_eq
    intro i hi
    rw [responseHeader_getLsbD,
      show BitVec.getLsbD (w := 32) (c ++ 0#20 ++ 2#4) i =
        BitVec.getLsbD (w := 8 + 20 + 4) (c ++ 0#20 ++ 2#4) i from rfl]
    simp only [BitVec.getLsbD_append]
    have hi : i < 32 := hi
    interval_cases i <;> simp [statusCode]
  rw [responseWords, h]

/-- The idle marker's words, for either level (41_encoder.md R106). -/
theorem markerWords (b : Bool) :
    responseWords { status := .ok, f0 := false, f1 := b, echo := 0x12#8, data := [0#32] } =
      [if b then 0x12000200#32 else 0x12000000#32, 0#32] := by
  cases b <;> decide

/-- An element's words (41_encoder.md R106). -/
theorem elementWords (l : Level) (d : Word) :
    responseWords { status := .ok, f0 := true, f1 := l, echo := 0x12#8, data := [d] } =
      [if l then 0x12000300#32 else 0x12000100#32, d] := by
  cases l
  · exact congrArg (· :: [d]) (by decide : responseHeader
      { status := .ok, f0 := true, f1 := false, echo := 0x12#8, data := [] } = 0x12000100#32)
  · exact congrArg (· :: [d]) (by decide : responseHeader
      { status := .ok, f0 := true, f1 := true, echo := 0x12#8, data := [] } = 0x12000300#32)

/-! ## Meanings, case by case -/

theorem execEload_of_fits {n : Nat} {s : State} (key : Key) (rep : Word) (h : waveLen n ≤ s.cap.toNat) :
    execEload n key rep s =
      .next (respond { status := .ok, echo := 0x10#8 }
        (setEnc
          { wave := waveLoad (build s.prof key n) s.enc.wave
            len := BitVec.ofNat 8 (waveLen n), cursor := 0#8, repeats := rep, running := true } s)) := by
  rw [execEload, if_neg (Nat.not_lt_of_le h)]

theorem execEload_of_not_fits {n : Nat} {s : State} (key : Key) (rep : Word)
    (h : s.cap.toNat < waveLen n) :
    execEload n key rep s = .next (respond { status := .fail, echo := 0x10#8 } (setRunning false s)) := by
  rw [execEload, if_pos h]

theorem execEyield_of_idle {s : State} (h : s.enc.repeats = 0#32 ∨ s.enc.running = false) :
    execEyield s =
      .next (respond
        { status := .ok, f0 := false, f1 := Config.freeLevel s.draws, echo := 0x12#8, data := [0#32] }
        (addDraws 1 (setRunning false s))) := by
  rw [execEyield, if_pos h]

theorem execEyield_of_element {s : State} {e : Element} (hr : s.enc.repeats ≠ 0#32)
    (hrun : s.enc.running = true) (he : waveRead s.enc.wave s.enc.cursor = some e) :
    execEyield s =
      .next (respond { status := .ok, f0 := true, f1 := e.level, echo := 0x12#8, data := [e.duration] }
        (setEnc (advance s.enc) s)) := by
  rw [execEyield, if_neg (by simp [hr, hrun]), he]

theorem execEyield_of_outside {s : State} (hr : s.enc.repeats ≠ 0#32) (hrun : s.enc.running = true)
    (he : waveRead s.enc.wave s.enc.cursor = none) : execEyield s = .fault .waveIndexOutside := by
  rw [execEyield, if_neg (by simp [hr, hrun]), he]

theorem execRevb_of_le {w : Nat} (v : Key) (s : State) (h : w ≤ 64) :
    execRevb w v s =
      .next (respond
        { status := .ok, echo := 0x20#8, data := [loWord (reverseBits v w), hiWord (reverseBits v w)] }
        s) := by
  rw [execRevb, if_neg (by omega)]

theorem execRevb_of_gt {w : Nat} (v : Key) (s : State) (h : 64 < w) :
    execRevb w v s = .next (raiseIllegal 0x20#8 s) := by
  rw [execRevb, if_pos h]

theorem execCfgwr_of_profile (r : ProfileReg) (v : Word) (s : State) :
    execCfgwr (cfgIndex (.profile r)) v s =
      .next (respond { status := .ok, echo := 0x30#8 }
        (setProf (profSet s.prof r (v &&& wmask r)) s)) := by
  rw [execCfgwr, cfgRegAt_cfgIndex]

/-- Every other index is refused (43_register_access.md R115). -/
theorem execCfgwr_of_not_profile {a : BitVec 8} (v : Word) (s : State)
    (h : ∀ r, cfgRegAt a ≠ some (.profile r)) : execCfgwr a v s = .next (raiseIllegal 0x30#8 s) := by
  unfold execCfgwr
  split
  · rename_i r hr
    exact absurd hr (h r)
  all_goals rfl

theorem execCfgrd_of_assigned (r : CfgReg) (s : State) :
    execCfgrd (cfgIndex r) s =
      .next (respond
        { status := .ok, echo := 0x31#8, data := [cfgRead s (Config.freeWord s.draws) r] }
        (addDraws (cfgDraws s r) s)) := by
  rw [execCfgrd, cfgRegAt_cfgIndex]

theorem execCfgrd_of_unassigned {a : BitVec 8} (s : State) (h : cfgRegAt a = none) :
    execCfgrd a s = .next (raiseIllegal 0x31#8 s) := by
  rw [execCfgrd, h]

/-! ## The port -/

/-- No meaning reads or writes what waits at the port (20_memory.md R62). -/
theorem exec_setInput {i : Instr} {s t : State} (q : List Input) (h : exec i s = .next t) :
    exec i (setInput q s) = .next (setInput q t) ∧ t.input = s.input := by
  cases i with
  | feed l d => cases h; exact ⟨rfl, rfl⟩
  | dreset => cases h; exact ⟨rfl, rfl⟩
  | estop => cases h; exact ⟨rfl, rfl⟩
  | eload n key rep =>
    by_cases hf : s.cap.toNat < waveLen n
    · rw [exec, execEload_of_not_fits key rep hf] at h
      cases h
      exact ⟨execEload_of_not_fits key rep (s := setInput q s) hf, rfl⟩
    · have hf : 2 * n + 2 ≤ s.cap.toNat := Nat.le_of_not_lt hf
      rw [exec, execEload_of_fits key rep hf] at h
      cases h
      exact ⟨execEload_of_fits key rep (s := setInput q s) hf, rfl⟩
  | eyield =>
    by_cases hr : s.enc.repeats = 0#32 ∨ s.enc.running = false
    · rw [exec, execEyield_of_idle hr] at h
      cases h
      exact ⟨execEyield_of_idle (s := setInput q s) hr, rfl⟩
    · rw [not_or, Bool.not_eq_false] at hr
      cases hw : waveRead s.enc.wave s.enc.cursor with
      | none => rw [exec, execEyield_of_outside hr.1 hr.2 hw] at h; cases h
      | some e =>
        rw [exec, execEyield_of_element hr.1 hr.2 hw] at h
        cases h
        exact ⟨execEyield_of_element (s := setInput q s) hr.1 hr.2 hw, rfl⟩
  | revb w v =>
    by_cases hw : w ≤ 64
    · rw [exec, execRevb_of_le v s hw] at h
      cases h
      exact ⟨execRevb_of_le v _ hw, rfl⟩
    · rw [exec, execRevb_of_gt v s (by omega)] at h
      cases h
      exact ⟨execRevb_of_gt v _ (by omega), rfl⟩
  | cfgwr a v =>
    by_cases hp : ∃ r, cfgRegAt a = some (.profile r)
    · obtain ⟨r, hr⟩ := hp
      obtain rfl := cfgRegAt_eq_some.mp hr
      rw [exec, execCfgwr_of_profile] at h
      cases h
      exact ⟨execCfgwr_of_profile r v _, rfl⟩
    · rw [not_exists] at hp
      rw [exec, execCfgwr_of_not_profile v s hp] at h
      cases h
      exact ⟨execCfgwr_of_not_profile v _ hp, rfl⟩
  | cfgrd a =>
    cases hr : cfgRegAt a with
    | none =>
      rw [exec, execCfgrd_of_unassigned s hr] at h
      cases h
      exact ⟨execCfgrd_of_unassigned _ hr, rfl⟩
    | some r =>
      obtain rfl := cfgRegAt_eq_some.mp hr
      rw [exec, execCfgrd_of_assigned] at h
      cases h
      refine ⟨?_, rfl⟩
      rw [exec, execCfgrd_of_assigned]
      cases r with
      | profile r => rfl
      | capacity => rfl
      | status v => cases v <;> rfl

end Sys2Proof.Machine
end

