-- ==== Sys2Proof/Laws/PerInstr.lean ====
section
/-! SUPPORT. Statements about every command as syntax, one lemma per constructor. -/

namespace Sys2Proof.Laws.HeaderMeetsRow

/-- The header of a well-formed command meets the mask and match words of its opcode's row, echoes its opcode,
and is followed by the row's number of argument words (30_encoding.md R69, R70). -/
def Statement (i : Instr) : Prop :=
  i.WellFormed →
    encodeHeader i &&& opcodeMask (instrOpcode i) = opcodeMatch (instrOpcode i) ∧
    hdrOpc (encodeHeader i) = opcodeCode (instrOpcode i) ∧
    (encodeArgs i).length = opcodeArgs (instrOpcode i)

/-- Two words agree bit by bit under a mask. -/
theorem and_eq_of_bits {x m v : Word} (h : ∀ j : Fin 32, (x.getLsbD j && m.getLsbD j) = v.getLsbD j) :
    x &&& m = v := by
  apply BitVec.eq_of_getLsbD_eq
  intro j hj
  rw [BitVec.getLsbD_and]
  exact h ⟨j, hj⟩

/-- A header with only the level bit beside its opcode (30_encoding.md R70, FEED). -/
theorem mask_level (c : BitVec 8) (l : Level) : mkHeader c l 0 0#8 &&& 0xFFFFFEFF#32 = c.setWidth 32 := by
  apply and_eq_of_bits
  intro j
  rw [mkHeader_getLsbD]
  fin_cases j <;> simp

/-- A header with only the count beside its opcode (30_encoding.md R70, ELOAD and REVB). -/
theorem mask_count (c : BitVec 8) (n : Nat) : mkHeader c false n 0#8 &&& 0xFF80FFFF#32 = c.setWidth 32 := by
  apply and_eq_of_bits
  intro j
  rw [mkHeader_getLsbD]
  fin_cases j <;> simp

/-- A header with only the register index beside its opcode (30_encoding.md R70, CFGWR and CFGRD). -/
theorem mask_index (c a : BitVec 8) : mkHeader c false 0 a &&& 0x00FFFFFF#32 = c.setWidth 32 := by
  apply and_eq_of_bits
  intro j
  rw [mkHeader_getLsbD]
  fin_cases j <;> simp

theorem feed (l : Level) (d : Word) : Statement (.feed l d) :=
  fun _ => ⟨mask_level 0x01#8 l, hdrOpc_mkHeader .., rfl⟩

theorem dreset : Statement .dreset := fun _ => ⟨by decide, by decide, rfl⟩

theorem eload (n : Nat) (key : Key) (rep : Word) : Statement (.eload n key rep) :=
  fun _ => ⟨mask_count 0x10#8 n, hdrOpc_mkHeader .., rfl⟩

theorem estop : Statement .estop := fun _ => ⟨by decide, by decide, rfl⟩

theorem eyield : Statement .eyield := fun _ => ⟨by decide, by decide, rfl⟩

theorem revb (w : Nat) (v : Key) : Statement (.revb w v) :=
  fun _ => ⟨mask_count 0x20#8 w, hdrOpc_mkHeader .., rfl⟩

theorem cfgwr (a : BitVec 8) (v : Word) : Statement (.cfgwr a v) :=
  fun _ => ⟨mask_index 0x30#8 a, hdrOpc_mkHeader .., rfl⟩

theorem cfgrd (a : BitVec 8) : Statement (.cfgrd a) :=
  fun _ => ⟨mask_index 0x31#8 a, hdrOpc_mkHeader .., rfl⟩

end Sys2Proof.Laws.HeaderMeetsRow
end

