-- ==== Sys2Proof/Machine/Assembler.lean ====
section
/-! DEFINITION. The assembler syntax and the pseudo-commands (30_encoding.md R78, R79): text lines to commands
and command words. It is the host's side of the port; no step reads it. Points of the text form that R78 and
R79 leave open are DESIGN CHOICE (log 12). -/

namespace Sys2Proof.Machine

/-! ## Lines and what they expand to -/

/-- A register index as written: a number, or a name of 10_state.md R29, R46 to R50 (30_encoding.md R78). -/
inductive RegRef where
  | index (n : Nat)
  | name (r : CfgReg)
deriving DecidableEq, Repr

/-- One line of assembler text, numbers as written (30_encoding.md R78, R79). -/
inductive AsmLine where
  | feed (level duration : Nat)
  | dreset
  | eload (bitCount key repeatCount : Nat)
  | estop
  | eyield
  | revb (width value : Nat)
  | cfgwr (r : RegRef) (value : Nat)
  | cfgrd (r : RegRef)
  /-- `FEEDH d`. -/
  | feedh (duration : Nat)
  /-- `FEEDL d`. -/
  | feedl (duration : Nat)
  /-- `SILENCE d`. -/
  | silence (duration : Nat)
  /-- `CFGWR name.FIELD=v, ...`. -/
  | cfgwrFields (r : CfgReg) (items : List (String × Nat))
deriving DecidableEq, Repr

/-- A number that fits `w` bits, as those bits. -/
def fits (w n : Nat) : Option (BitVec w) := if n < 2 ^ w then some (BitVec.ofNat w n) else none

/-- The index a register reference stands for. -/
def regRefIndex : RegRef → Option (BitVec 8)
  | .index n => fits 8 n
  | .name r => some (cfgIndex r)

/-- The named fields of a register, as `(name, lowest bit, width)` (10_state.md R29, R46, R49). -/
def cfgFields : CfgReg → List (String × Nat × Nat)
  | .profile .ts => []
  | .profile .tl => []
  | .profile .tol => []
  | .profile .minb => [("MINB", 0, 7)]
  | .profile .preCtl => [("LVL", 0, 1), ("HOLD", 1, 1)]
  | .profile .preKref => [("K", 0, 16)]
  | .profile .preKwin => [("K", 0, 16)]
  | .profile .sbCtl => [("LVL", 0, 1), ("REFSEL", 1, 1)]
  | .profile .sbKwin => [("K", 0, 16)]
  | .profile .cellKws => [("K", 0, 16)]
  | .profile .cellKwl => [("K", 0, 16)]
  | .profile .cellLvl => [("EN", 0, 1), ("L1", 1, 1), ("L2", 2, 1)]
  | .profile .eofKs => [("K", 0, 16)]
  | .profile .eofKw => [("K", 0, 16)]
  | .profile .hdrK => [("K", 0, 16)]
  | .capacity => [("CAP", 0, 8)]
  | .status .decStatus => [("STEP", 0, 2), ("COUNT", 8, 7)]
  | .status .decAccLo => []
  | .status .decAccHi => []
  | .status .decPending => []
  | .status .encStatus => [("RUNNING", 0, 1), ("CURSOR", 8, 8), ("LEN", 16, 8)]
  | .status .encRepeats => []

/-- The value that places each `v` at its field, other bits 0 (30_encoding.md R79). A field the register does
not have, a value too large for its field, and a field given twice have no value (log 12). -/
def placeFields (r : CfgReg) : List (String × Nat) → Option Nat
  | [] => some 0
  | (f, v) :: rest =>
    match (cfgFields r).lookup f, placeFields r rest with
    | some (lo, width), some word =>
      if v < 2 ^ width ∧ (rest.lookup f).isNone then some (word + v * 2 ^ lo) else none
    | _, _ => none

/-- The one command a line stands for; `none` when an operand is out of its range (30_encoding.md R78, R79). -/
def asmInstr : AsmLine → Option Instr
  | .feed l d =>
    if l = 0 then (fits 32 d).map (.feed false)
    else if l = 1 then (fits 32 d).map (.feed true) else none
  | .dreset => some .dreset
  | .eload n key rep =>
    if n < 128 then
      match fits 64 key, fits 32 rep with
      | some k, some r => some (.eload n k r)
      | _, _ => none
    else none
  | .estop => some .estop
  | .eyield => some .eyield
  | .revb w v => if w < 128 then (fits 64 v).map (.revb w) else none
  | .cfgwr r v =>
    match regRefIndex r, fits 32 v with
    | some a, some x => some (.cfgwr a x)
    | _, _ => none
  | .cfgrd r => (regRefIndex r).map .cfgrd
  | .feedh d => (fits 32 d).map (.feed true)
  | .feedl d => (fits 32 d).map (.feed false)
  | .silence d => (fits 32 d).map (.feed false)
  | .cfgwrFields r items =>
    ((placeFields r items).bind (fits 32)).map (.cfgwr (cfgIndex r))

/-! ## Text -/

/-- The pieces of a line. -/
inductive Token where
  | ident (s : String)
  | num (n : Nat)
  | comma
  | dot
  | equals
deriving DecidableEq, Repr

/-- The value of a hexadecimal digit. -/
def hexDigit (c : Char) : Option Nat :=
  if '0' ≤ c ∧ c ≤ '9' then some (c.toNat - '0'.toNat)
  else if 'a' ≤ c ∧ c ≤ 'f' then some (c.toNat - 'a'.toNat + 10)
  else if 'A' ≤ c ∧ c ≤ 'F' then some (c.toNat - 'A'.toNat + 10)
  else none

/-- The number the digits make in base `b`, after `acc`. -/
def digits (b : Nat) : Nat → List Char → Option Nat
  | acc, [] => some acc
  | acc, c :: cs =>
    match hexDigit c with
    | some d => if d < b then digits b (acc * b + d) cs else none
    | none => none

/-- A word of the text: a number, decimal or `0x` hexadecimal, or a name (30_encoding.md R78). -/
def wordToken : List Char → Option Token
  | [] => none
  | '0' :: 'x' :: c :: cs => (digits 16 0 (c :: cs)).map .num
  | c :: cs =>
    if '0' ≤ c ∧ c ≤ '9' then (digits 10 0 (c :: cs)).map .num
    else some (.ident (String.ofList (c :: cs)))

/-- The pieces of a line, `cur` being the word read so far; `;` starts a comment (30_encoding.md R78). -/
def tokens : List Char → List Char → Option (List Token)
  | [], [] => some []
  | [], cur => (wordToken cur).map ([·])
  | c :: cs, cur =>
    let before : Option (List Token) :=
      if cur = [] then some [] else (wordToken cur).map ([·])
    let after (ts : List Token) : Option (List Token) :=
      match before, tokens cs [] with
      | some b, some r => some (b ++ ts ++ r)
      | _, _ => none
    if c.isAlphanum || c == '_' then tokens cs (cur ++ [c])
    else if c = ';' then before
    else if c = ' ' ∨ c = '\t' then after []
    else if c = ',' then after [.comma]
    else if c = '.' then after [.dot]
    else if c = '=' then after [.equals]
    else none

/-- The name of a register (10_state.md R29, R46 to R50). -/
def cfgName : CfgReg → String
  | .profile .ts => "TS"
  | .profile .tl => "TL"
  | .profile .tol => "TOL"
  | .profile .minb => "MINB"
  | .profile .preCtl => "PRE_CTL"
  | .profile .preKref => "PRE_KREF"
  | .profile .preKwin => "PRE_KWIN"
  | .profile .sbCtl => "SB_CTL"
  | .profile .sbKwin => "SB_KWIN"
  | .profile .cellKws => "CELL_KWS"
  | .profile .cellKwl => "CELL_KWL"
  | .profile .cellLvl => "CELL_LVL"
  | .profile .eofKs => "EOF_KS"
  | .profile .eofKw => "EOF_KW"
  | .profile .hdrK => "HDR_K"
  | .capacity => "CAPACITY"
  | .status .decStatus => "DEC_STATUS"
  | .status .decAccLo => "DEC_ACC_LO"
  | .status .decAccHi => "DEC_ACC_HI"
  | .status .decPending => "DEC_PENDING"
  | .status .encStatus => "ENC_STATUS"
  | .status .encRepeats => "ENC_REPEATS"

/-- The register of a name. -/
def cfgNamed (s : String) : Option CfgReg := allCfgRegs.find? fun r => decide (cfgName r = s)

/-- A register reference. -/
def regRef : Token → Option RegRef
  | .num n => some (.index n)
  | .ident s => (cfgNamed s).map .name
  | _ => none

/-- The items `FIELD=v` or `name.FIELD=v` of a field write to the register named `reg`, between commas
(30_encoding.md R79; log 12). -/
def fieldItems (reg : String) : List Token → Option (List (String × Nat))
  | [.ident f, .equals, .num v] => some [(f, v)]
  | [.ident n, .dot, .ident f, .equals, .num v] => if n = reg then some [(f, v)] else none
  | .ident f :: .equals :: .num v :: .comma :: rest => (fieldItems reg rest).map ((f, v) :: ·)
  | .ident n :: .dot :: .ident f :: .equals :: .num v :: .comma :: rest =>
    if n = reg then (fieldItems reg rest).map ((f, v) :: ·) else none
  | _ => none

/-- The line a list of pieces makes (30_encoding.md R78, R79). -/
def parseTokens : List Token → Option AsmLine
  | [.ident "FEED", .num l, .comma, .num d] => some (.feed l d)
  | [.ident "DRESET"] => some .dreset
  | [.ident "ELOAD", .num n, .comma, .num key, .comma, .num rep] => some (.eload n key rep)
  | [.ident "ESTOP"] => some .estop
  | [.ident "EYIELD"] => some .eyield
  | [.ident "REVB", .num w, .comma, .num v] => some (.revb w v)
  | [.ident "CFGWR", r, .comma, .num v] => (regRef r).map (.cfgwr · v)
  | [.ident "CFGRD", r] => (regRef r).map .cfgrd
  | [.ident "FEEDH", .num d] => some (.feedh d)
  | [.ident "FEEDL", .num d] => some (.feedl d)
  | [.ident "SILENCE", .num d] => some (.silence d)
  | .ident "CFGWR" :: .ident n :: .dot :: rest =>
    match cfgNamed n, fieldItems n rest with
    | some r, some items => some (.cfgwrFields r items)
    | _, _ => none
  | _ => none

/-- The command words of one line, none for a blank or comment line; `none` when the line is no command
(30_encoding.md R78). -/
def assembleLine (line : List Char) : Option (List Word) :=
  match tokens line [] with
  | none => none
  | some [] => some []
  | some ts => ((parseTokens ts).bind asmInstr).map encode

/-- The command words of a text, one command per line, in order (30_encoding.md R78). -/
def assemble : List (List Char) → Option (List Word)
  | [] => some []
  | line :: rest =>
    match assembleLine line, assemble rest with
    | some ws, some more => some (ws ++ more)
    | _, _ => none

end Sys2Proof.Machine
end

