-- ==== Sys2Proof/Tests/Slice0.lean ====
section
/-! SUPPORT. Tests: well-formedness, words written out from the spec, one step at a time against the vectors of
95_test_vectors.md, and for every obligation with hypotheses a state and operands that meet them. -/

namespace Sys2Proof.Tests

open Sys2Proof.Machine

/-! ## States the tests start from -/

/-- The reference profile (92_eei_decisions.md D37). -/
def refProfile : Profile where
  ts := 350#32
  tl := 700#32
  tol := 100#32
  minb := 24#32
  preCtl := 0#32
  preKref := 36#32
  preKwin := 36#32
  sbCtl := 3#32
  sbKwin := 1#32
  cellKws := 1#32
  cellKwl := 1#32
  cellLvl := 0#32
  eofKs := 4#32
  eofKw := 1#32
  hdrK := 36#32

/-- REF of 95_test_vectors.md section 0. -/
def ref : State := { State.reset with prof := refProfile }

/-- REF with the decoder in a given state. -/
def refAt (step : DecStep) (count : BitVec 7) (acc : Key) (pending : Word) : State :=
  { ref with dec := { step := step, acc := acc, count := count, pending := pending } }

/-- REF with bit-cell levels checked, first half high and second half low (V-DEC-26). -/
def refLevels (step : DecStep) : State :=
  { refAt step 0#7 0#64 350#32 with prof := { refProfile with cellLvl := 3#32 } }

/-- REF with a loaded encoder: `LEN` 2, one repeat (V-ENC-1). -/
def loaded (cursor : BitVec 8) (running : Bool) : State :=
  { ref with
    enc :=
      { wave := waveLoad [⟨false, 12600#32⟩, ⟨true, 700#32⟩] ref.enc.wave
        len := 2#8, cursor := cursor, repeats := 1#32, running := running } }

/-- REF with these words at the port. -/
def sent (ws : List Word) : State := { ref with input := ws.map Input.word }

/-- The words an outcome has answered. -/
def answer : Host.Outcome State Fault Refusal → Option (List Word)
  | .next t => some t.output
  | _ => none

/-- What holds of the state an outcome goes on to. -/
def After (p : State → Bool) : Host.Outcome State Fault Refusal → Bool
  | .next t => p t
  | _ => false

/-! ## Well-formedness -/

theorem test_wellFormed_refuses_eload_128 : ¬(Instr.eload 128 0#64 1#32).WellFormed := by decide

theorem test_wellFormed_refuses_revb_128 : ¬(Instr.revb 128 0#64).WellFormed := by decide

theorem test_wellFormed_accepts_counts_to_127 :
    (Instr.eload 127 0#64 1#32).WellFormed ∧ (Instr.revb 127 0#64).WellFormed := by decide

/-! ## Words written out from 30_encoding.md R68 to R70 -/

/-- `L` is bit 8: a mark of 700. -/
theorem test_decode_feed :
    decode 0b00000000_0_0000000_0000000_1_00000001#32 [700#32] = .instr (.feed true 700#32) := by decide

theorem test_decode_dreset :
    decode 0b00000000_0_0000000_0000000_0_00000010#32 [] = .instr .dreset := by decide

/-- `N` is bits 22:16; the key goes low word first. -/
theorem test_decode_eload :
    decode 0b00000000_0_0000010_0000000_0_00010000#32 [0xFFFFFFFE#32, 0x00000001#32, 3#32] =
      .instr (.eload 2 0x00000001FFFFFFFE#64 3#32) := by decide

theorem test_decode_estop :
    decode 0b00000000_0_0000000_0000000_0_00010001#32 [] = .instr .estop := by decide

theorem test_decode_eyield :
    decode 0b00000000_0_0000000_0000000_0_00010010#32 [] = .instr .eyield := by decide

theorem test_decode_revb :
    decode 0b00000000_0_1000001_0000000_0_00100000#32 [1#32, 2#32] =
      .instr (.revb 65 0x0000000200000001#64) := by decide

/-- `A` is bits 31:24. -/
theorem test_decode_cfgwr :
    decode 0b00001110_0_0000000_0000000_0_00110000#32 [5#32] = .instr (.cfgwr 0x0E#8 5#32) := by decide

theorem test_decode_cfgrd :
    decode 0b00100101_0_0000000_0000000_0_00110001#32 [] = .instr (.cfgrd 0x25#8) := by decide

/-- The opcode table's numbering: the argument words above the header's 32 bits. -/
theorem test_decodeTableWord :
    decodeTableWord 64 0x000002BC_00000101 = some (.feed true 700#32) ∧
    decodeTableWord 32 0x00180010 = some (.eload 24 0#64 0#32) ∧
    decodeTableWord 32 0x00000003 = none := by decide

/-- Reserved bit 9, bit 23, an unused `A` and an unused `N` (V-ILL-2, V-ILL-3, V-ENC-16, V-CFG-10). -/
theorem test_malformed_headers :
    decode 0x00000201#32 [0#32] = .illegal .malformedHeader ∧
    decode 0x01000001#32 [0#32] = .illegal .malformedHeader ∧
    decode 0x00990010#32 [0#32, 0#32, 1#32] = .illegal .malformedHeader ∧
    decode 0x00010030#32 [5#32] = .illegal .malformedHeader := by decide

/-- The other direction: the encoder writes the vectors' words. -/
theorem test_encode :
    encode (.eload 24 0xA1B2C3#64 1#32) = [0x00180010#32, 0x00A1B2C3#32, 0#32, 1#32] ∧
    encode (.feed false 12600#32) = [0x00000001#32, 0x00003138#32] ∧
    encode (.cfgrd 0x24#8) = [0x24000031#32] := by decide

/-! ## One step -/

/-- V-DEC-3: the preamble window is strict: an offset of 3600 does not match. -/
theorem test_feed_preamble_edge :
    After (fun t => t.dec.step == .idle) (exec (.feed false 9000#32) ref) ∧
    After (fun t => t.dec.step == .foundPreamble) (exec (.feed false 9001#32) ref) := by decide

/-- V-DEC-31, V-DEC-32: 1501 ends the frame and reports it, 1500 is a first half. -/
theorem test_feed_frame_end :
    answer (exec (.feed true 1501#32) (refAt .awaitingBitHalf 24#7 0xA1B2C3#64 0#32)) =
      some [0x01180100#32, 0x00A1B2C3#32, 0#32] ∧
    answer (exec (.feed false 1500#32) (refAt .awaitingBitHalf 24#7 0xA1B2C3#64 0#32)) =
      some [0x01000000#32, 0#32, 0#32] := by decide

/-- V-DRS-1 and V-DRS-4: DRESET, and a malformed one that resets nothing. -/
theorem test_dreset :
    After (fun t => t.dec.step == .idle && t.dec.count == 0#7 && t.output == [0x02000000#32])
      (exec .dreset (refAt .awaitingBitHalf 10#7 0x3FF#64 0#32)) ∧
    After (fun t => t.dec.count == 10#7 && t.output == [0x02000002#32])
      (step ((refAt .awaitingBitHalf 10#7 0x3FF#64 0#32).withFetchWord 32 0x00000102)) := by decide

/-- V-ENC-8: the header gap saturates. -/
theorem test_eload_saturates :
    After (fun t => t.enc.wave[0]? == some ⟨false, 0xFFFFFFFF#32⟩ && t.enc.wave[1]? == some ⟨true, 700#32⟩)
      (exec (.eload 0 0#64 1#32)
        { ref with prof := { refProfile with ts := 0xFFFFFFFF#32, hdrK := 2#32 } }) := by decide

/-- V-ENC-6: a load that does not fit stops playback and keeps the cursor and the length. -/
theorem test_eload_capacity :
    After (fun t => t.enc == { (loaded 1#8 false).enc with running := false } &&
        t.output == [0x10000001#32]) (exec (.eload 25 0#64 1#32) (loaded 1#8 true)) := by decide

/-- V-ENC-12: ESTOP keeps the cursor. -/
theorem test_estop :
    After (fun t => !t.enc.running && t.enc.cursor == 1#8 && t.output == [0x11000000#32])
      (exec .estop (loaded 1#8 true)) := by decide

/-- V-ENC-1: the last element of the last pass is delivered, `RUNNING` stays 1. -/
theorem test_eyield_last_element :
    After (fun t => t.enc.running && t.enc.cursor == 0#8 && t.enc.repeats == 0#32 &&
        t.output == [0x12000300#32, 700#32]) (exec .eyield (loaded 1#8 true)) := by decide

/-- P4, command 6: the idle marker leaves the cursor; its `LEVEL` is not checked. -/
theorem test_eyield_idle :
    After (fun t => !t.enc.running && t.enc.cursor == 1#8 && t.enc.repeats == 1#32)
      (exec .eyield (loaded 1#8 false)) := by decide

/-- V-REV-1 and V-REV-5. -/
theorem test_revb :
    answer (exec (.revb 24 0xA1B2C3#64) ref) = some [0x20000000#32, 0x00C34D85#32, 0#32] ∧
    answer (exec (.revb 64 0x0123456789ABCDEF#64) ref) =
      some [0x20000000#32, 0xE6A2C480#32, 0xF7B3D591#32] := by decide

/-- V-REV-11. -/
theorem test_revb_width_65 : answer (exec (.revb 65 1#64) ref) = some [0x20000002#32] := by decide

/-- V-CFG-2: reserved bits of `MINB` are dropped. -/
theorem test_cfgwr_masks :
    After (fun t => t.prof.minb == 0x7F#32) (exec (.cfgwr 0x03#8 0xFFFFFFFF#32) ref) := by decide

/-- V-CFG-5: `CAPACITY` is read-only. -/
theorem test_cfgwr_capacity :
    exec (.cfgwr 0x10#8 1#32) ref = .next { ref with output := [0x30000002#32] } := rfl

/-- V-CFG-7: `DEC_STATUS` and `DEC_PENDING` in ClassifyingBitHalf. -/
theorem test_cfgrd_decoder :
    answer (exec (.cfgrd 0x20#8) (refAt .classifyingBitHalf 3#7 5#64 350#32)) =
      some [0x31000000#32, 0x00000303#32] ∧
    answer (exec (.cfgrd 0x23#8) (refAt .classifyingBitHalf 3#7 5#64 350#32)) =
      some [0x31000000#32, 350#32] := by decide

/-- V-CFG-5 and V-CFG-6: `CAPACITY` reads 50, 0x11 is unassigned. -/
theorem test_cfgrd_capacity :
    answer (exec (.cfgrd 0x10#8) ref) = some [0x31000000#32, 0x32#32] ∧
    answer (exec (.cfgrd 0x11#8) ref) = some [0x31000002#32] := by decide

/-- V-ILL-6: an unknown opcode takes no argument word; the next word is the next header. -/
theorem test_unknown_opcode :
    step (sent [0x00000040#32, 0x00000012#32]) =
      .next { sent [0x00000012#32] with output := [0x40000002#32] } := rfl

/-- V-ILL-2: a malformed FEED takes its argument word. -/
theorem test_malformed_takes_its_words :
    step (sent [0x00000201#32, 0x00003138#32]) = .next { ref with output := [0x01000002#32] } := rfl

/-- The fetched command is the one that was placed (log 9). -/
theorem test_withFetchWord :
    step (State.reset.withFetchWord 64 0x0000015E_00000030) =
      .next { State.reset with
        prof := { Profile.zero with ts := 350#32 }, output := [0x30000000#32] } := rfl

/-- 20_memory.md R58: the least significant byte of a word goes first. -/
theorem test_wordBytes : wordBytes 0x00A1B2C3#32 = [0xC3#8, 0xB2#8, 0xA1#8, 0x00#8] := by decide

/-! ## The assembler -/

/-- A pulse with a comment, and the words of V-DEC-1. -/
theorem test_assemble_feed :
    assembleLine "FEED 0, 12600 ; preamble".toList = some [0x00000001#32, 0x00003138#32] := by decide

/-- A field write places each value at its field (30_encoding.md R79). -/
theorem test_assemble_fields :
    assembleLine "CFGWR PRE_CTL.HOLD=1, LVL=1".toList = some [0x04000030#32, 3#32] := by decide

/-- The pseudo-commands of 30_encoding.md R79. -/
theorem test_pseudo_commands :
    asmInstr (.feedh 700) = some (.feed true 700#32) ∧ asmInstr (.feedl 350) = some (.feed false 350#32) ∧
    asmInstr (.silence 2000) = some (.feed false 2000#32) := by decide

/-! ## Witnesses: every obligation's hypotheses can be met -/

theorem witness_DecodeOfEncodeIsTheCommand :
    (Instr.eload 127 0xFFFFFFFFFFFFFFFF#64 0xFFFFFFFF#32).WellFormed ∧ (Instr.cfgrd 0xFF#8).WellFormed := by
  decide

theorem witness_EncodeOfDecodeIsTheWords :
    decode 0x007F0020#32 [1#32, 2#32] = .instr (.revb 127 0x0000000200000001#64) := by decide

theorem witness_StepRunsTheDecodedCommand :
    (sent [0x00000101#32, 700#32, 0x00000012#32]).input =
      [0x00000101#32, 700#32].map Input.word ++ [Input.word 0x00000012#32] ∧
    decode 0x00000101#32 [700#32] = .instr (.feed true 700#32) := by decide

theorem witness_UndecodableCommandIsIllegal_unknown :
    (sent [0x0000007F#32]).input = ([0x0000007F#32] : List Word).map Input.word ++ [] ∧
    ∀ o, opcodeCode o ≠ BitVec.extractLsb' 0 8 0x0000007F#32 := by
  refine ⟨by decide, fun o => ?_⟩
  cases o <;> decide

theorem witness_UndecodableCommandIsIllegal_malformed :
    (sent [0x00000201#32, 5#32]).input = [0x00000201#32, 5#32].map Input.word ++ [] ∧
    opcodeCode .feed = BitVec.extractLsb' 0 8 0x00000201#32 ∧ [5#32].length = opcodeArgs .feed ∧
    0x00000201#32 &&& opcodeMask .feed ≠ opcodeMatch .feed := by decide

theorem witness_PartialCommandWaits :
    ref.input = [] ∧
    (sent [0x00180010#32, 1#32, 2#32]).input = [0x00180010#32, 1#32, 2#32].map Input.word ∧
    [1#32, 2#32].length < argCount 0x00180010#32 := by decide

theorem witness_CommandsRunInOrder :
    (∀ i ∈ [Instr.eload 0 0#64 1#32, .eyield, .estop], i.WellFormed) ∧
    ∃ t, execAll [.eload 0 0#64 1#32, .eyield, .estop] ref = .next t :=
  ⟨by decide, _, rfl⟩

/-- A reset with nothing before it, and one before the last word of an ELOAD. -/
theorem witness_ResetInputResetsTheBlock :
    ({ ref with input := [.reset [5#32], .word 2#32] } : State).input =
      ([] : List Word).map Input.word ++ Input.reset [5#32] :: [.word 2#32] ∧
    ({ ref with input := [.word 0x00180010#32, .word 1#32, .word 2#32, .reset []] } : State).input =
      [0x00180010#32, 1#32, 2#32].map Input.word ++ Input.reset [] :: [] ∧
    [1#32, 2#32].length < argCount 0x00180010#32 := by decide

theorem witness_PowerOnStateIsAfterReset : CapLegal 2#8 ∧ CapLegal 130#8 := by decide

/-- At power-on, and after the reset input. -/
theorem witness_ReadsAfterReset :
    State.reset = State.resetWith 50#8 ∧
    (∃ t, fetch ({ ref with input := [.reset []] } : State).input = .reset [] ∧
      step { ref with input := [.reset []] } = .next t) ∧
    (0x0E#8).toNat ≤ 0x0E ∧ (0x00#8).toNat ≤ 0x0E :=
  ⟨by decide, ⟨_, rfl, rfl⟩, by decide, by decide⟩

theorem witness_BehaviourBeforeConfiguration :
    State.reset.AfterReset ∧ 2 * 24 + 2 ≤ State.reset.cap.toNat ∧ 49 < 2 * 24 + 2 := by decide

theorem witness_EveryStepKeepsTheInvariant :
    (sent [0x00180010#32, 0x00A1B2C3#32, 0#32, 1#32]).Inv ∧
    ∃ t, step (sent [0x00180010#32, 0x00A1B2C3#32, 0#32, 1#32]) = .next t :=
  ⟨by decide, _, rfl⟩

/-- A playing encoder at its last element, where the invariant keeps EYIELD inside the buffer. -/
theorem witness_NoStepStops : ({ loaded 1#8 true with input := [.word 0x12#32] } : State).Inv := by decide

theorem witness_StepKeepsCapacityAndPastResponses :
    ∃ t, step ({ ref with input := [.reset []] } : State) = .next t := ⟨_, rfl⟩

/-- Both changes: an ELOAD that sets `ENC.RUNNING`, and one that writes the buffer. -/
theorem witness_OnlyEloadWritesWaveOrSetsRunning :
    ∃ t, step (sent [0x00000010#32, 0#32, 0#32, 1#32]) = .next t ∧ t.enc.wave ≠ ref.enc.wave ∧
      ref.enc.running = false ∧ t.enc.running = true :=
  ⟨_, rfl, by decide, by decide, by decide⟩

/-- A FEED that changes the decoder, and a CFGWR that changes the profile. -/
theorem witness_WhoChangesDecoderAndProfile :
    (∃ t, step (sent [0x00000001#32, 12600#32]) = .next t ∧ t.dec ≠ ref.dec) ∧
    ∃ t, step (sent [0x0E000030#32, 1#32]) = .next t ∧ t.prof ≠ ref.prof :=
  ⟨⟨_, rfl, by decide⟩, _, rfl, by decide⟩

/-- Two states that do differ, in `DEC.PENDING` and in an element the encoder does not play. -/
theorem witness_UnspecifiedStateIsNotObservable :
    (sent [0x24000031#32]).Inv ∧
    (sent [0x24000031#32]).Alike
      { sent [0x24000031#32] with
        dec := { ref.dec with pending := 7#32 }
        enc := { ref.enc with wave := List.replicate 50 { level := true, duration := 9#32 } } } ∧
    ∃ t, step (sent [0x24000031#32]) = .next t :=
  ⟨by decide, by decide, _, rfl⟩

/-- A command of each status, a malformed header and an unknown opcode. -/
theorem witness_EveryCommandAnswersOneResponse :
    (fetch [.word 0x00190010#32, .word 0#32, .word 0#32, .word 1#32] =
        .command 0x00190010#32 [0#32, 0#32, 1#32] [] ∧
      ∃ t, step (sent [0x00190010#32, 0#32, 0#32, 1#32]) = .next t) ∧
    (fetch [.word 0x24000031#32] = .command 0x24000031#32 [] [] ∧
      ∃ t, step (sent [0x24000031#32]) = .next t) ∧
    (∃ t, step (sent [0x26000031#32]) = .next t) ∧ (∃ t, step (sent [0x00000131#32]) = .next t) ∧
    ∃ t, step (sent [0x0000007F#32]) = .next t :=
  ⟨⟨by decide, _, rfl⟩, ⟨by decide, _, rfl⟩, ⟨_, rfl⟩, ⟨_, rfl⟩, _, rfl⟩

/-- A command of each kind the three frame statements name. -/
theorem witness_frames :
    (∃ t, exec (.feed false 12600#32) ref = .next t) ∧ (∃ t, exec .dreset ref = .next t) ∧
    (∃ t, exec (.eload 24 0#64 1#32) ref = .next t) ∧ (∃ t, exec (.eload 25 0#64 1#32) ref = .next t) ∧
    (∃ t, exec .estop ref = .next t) ∧ (∃ t, exec .eyield (loaded 1#8 true) = .next t) ∧
    (∃ t, exec (.revb 65 0#64) ref = .next t) ∧
    (∃ t, exec (.cfgwr 0x0E#8 1#32) ref = .next t ∧ cfgIndex (.profile .eofKw) ≠ 0x0E#8) ∧
    ∃ t, exec (.cfgrd 0x26#8) ref = .next t :=
  ⟨⟨_, rfl⟩, ⟨_, rfl⟩, ⟨_, rfl⟩, ⟨_, rfl⟩, ⟨_, rfl⟩, ⟨_, rfl⟩, ⟨_, rfl⟩, ⟨_, rfl, by decide⟩, _, rfl⟩

/-- Both sides of a window where they exist. -/
theorem witness_ShortAndLongAreStrictWindows : 0 < 100 ∧ 100 ≤ 350 + 1 ∧ 100 ≤ 350 := by decide

theorem witness_FeedInIdleSeeksThePreamble :
    ref.dec.step = .idle ∧ Near 9001 (preRef ref.prof) (preWin ref.prof) ∧
    ¬Near 9000 (preRef ref.prof) (preWin ref.prof) := by decide

/-- The start bit, and with `HOLD` the repeated preamble (V-DEC-8, V-DEC-12). -/
theorem witness_FeedInFoundPreambleSeeksTheStartBit :
    (refAt .foundPreamble 0#7 0#64 0#32).dec.step = .foundPreamble ∧
    Near 601 (sbRef refProfile) (sbWin refProfile) ∧ ¬Near 600 (sbRef refProfile) (sbWin refProfile) ∧
    preHold { refProfile with preCtl := 2#32 } = true ∧
    Near 12600 (preRef refProfile) (preWin refProfile) := by decide

/-- A frame with its 24 bits, one with 23, and a first half at the threshold, its level checked or not. -/
theorem witness_FeedInAwaitingBitHalf :
    (refAt .awaitingBitHalf 24#7 0xA1B2C3#64 0#32).dec.step = .awaitingBitHalf ∧
    (refAt .awaitingBitHalf 23#7 0x50D961#64 0#32).dec.step = .awaitingBitHalf ∧
    eofThr refProfile < (1501#32).toNat ∧ (1500#32).toNat ≤ eofThr refProfile ∧
    (refLevels .awaitingBitHalf).dec.step = .awaitingBitHalf ∧
    (refLevels .awaitingBitHalf).prof.cellLvl.getLsbD 0 = true := by decide

/-- Both bits at the edge of their windows, the last bit that fits, and each way to discard the frame. -/
theorem witness_FeedOfASecondHalf :
    (refAt .classifyingBitHalf 63#7 0#64 251#32).dec.step = .classifyingBitHalf ∧
    (Near 251 350 (winShort refProfile) ∧ Near 799 700 (winLong refProfile) ∧ (63#7).toNat < 64) ∧
    (Near 601 700 (winLong refProfile) ∧ Near 449 350 (winShort refProfile) ∧
      ¬Near 601 350 (winShort refProfile)) ∧
    (¬Near 450 350 (winShort refProfile) ∧ ¬Near 450 700 (winLong refProfile)) ∧ 64 ≤ (64#7).toNat ∧
    (refLevels .classifyingBitHalf).prof.cellLvl.getLsbD 0 = true ∧
    (refLevels .classifyingBitHalf).prof.cellLvl.getLsbD 2 = false := by decide

/-- The emitting FEED and the FEED that appends a bit. -/
theorem witness_FeedEmitsOnlyAWholeFrame :
    answer (exec (.feed false 1501#32) (refAt .awaitingBitHalf 24#7 1#64 0#32)) =
      some [0x01180100#32, 1#32, 0#32] ∧
    answer (exec (.feed false 350#32) (refAt .classifyingBitHalf 0#7 0#64 700#32)) =
      some [0x01000600#32, 0#32, 0#32] := by decide

theorem witness_FeedDependsOnDecoderAndProfileOnly :
    ref.dec = (loaded 1#8 true).dec ∧ ref.prof = (loaded 1#8 true).prof ∧ ref ≠ loaded 1#8 true := by decide

theorem witness_EloadBuildsTheWaveform : 2 * 24 + 2 ≤ ref.cap.toNat ∧ 23 < 24 := by decide

/-- The second clause's hypotheses are met by the failing ELOAD's own response. -/
theorem witness_EloadFailsOnCapacity :
    ref.cap.toNat < 2 * 25 + 2 ∧ CapLegal (State.resetWith 130#8).cap ∧ 64 < 65 ∧
    ∃ t, exec (.eload 25 0#64 1#32) ref = .next t ∧ t.output = ref.output ++ [0x10000001#32] ∧
      BitVec.extractLsb' 0 4 0x10000001#32 = 1#4 :=
  ⟨by decide, by decide, by decide, _, rfl, rfl, by decide⟩

/-- No repeats left, stopped, an element inside a pass, and the last one. -/
theorem witness_EyieldDeliversTheElement :
    ref.enc.repeats = 0#32 ∧ (loaded 1#8 false).enc.running = false ∧
    (loaded 0#8 true).Inv ∧ (loaded 1#8 true).Inv ∧ (loaded 1#8 true).enc.repeats ≠ 0#32 ∧
    (loaded 1#8 true).enc.running = true := by decide

theorem witness_EyieldOutsideTheBufferFaults :
    (loaded 50#8 true).enc.repeats ≠ 0#32 ∧ (loaded 50#8 true).enc.running = true ∧
    (loaded 50#8 true).enc.wave.length ≤ (loaded 50#8 true).enc.cursor.toNat := by decide

theorem witness_EyieldDependsOnTheEncoderOnly :
    (loaded 1#8 true).enc = ({ loaded 1#8 true with prof := Profile.zero } : State).enc ∧
    (loaded 1#8 true).enc.repeats ≠ 0#32 ∧ (loaded 1#8 true).enc.running = true ∧
    ∃ t, exec .eyield (loaded 1#8 true) = .next t :=
  ⟨by decide, by decide, by decide, _, rfl⟩

theorem witness_RepeatAccounting :
    2 * 24 + 2 ≤ ref.cap.toNat ∧ ∃ t, exec (.eload 24 0xA1B2C3#64 3#32) ref = .next t :=
  ⟨by decide, _, rfl⟩

/-- The reference profile meets every condition of 41_encoder.md R111. -/
theorem witness_EncodeDecodeRoundTrip :
    ref.dec.step = .idle ∧ 24 ≤ 64 ∧
    0 < ref.prof.ts.toNat ∧ 0 < ref.prof.tl.toNat ∧ 0 < ref.prof.tol.toNat ∧
    preambleMatch ref.prof false (headerGap ref.prof).duration = true ∧
    startMatch ref.prof true ref.prof.tl = true ∧
    isShort ref.prof ref.prof.ts = true ∧ isLong ref.prof ref.prof.tl = true ∧
    (isLong ref.prof ref.prof.ts = false ∨ isShort ref.prof ref.prof.tl = false) ∧
    ref.prof.tl.toNat ≤ eofThr ref.prof ∧ ref.prof.ts.toNat ≤ eofThr ref.prof ∧
    eofThr ref.prof < (headerGap ref.prof).duration.toNat ∧
    minBits ref.prof ≤ 24 ∧
    (cellEn ref.prof = false ∨ cellL1 ref.prof = true ∧ cellL2 ref.prof = false) ∧
    eofThr ref.prof < (2000#32).toNat := by decide

theorem witness_RevbReversesTheLowBits : 0 ≤ 64 ∧ 64 ≤ 64 ∧ 64 < 65 := by decide

theorem witness_CfgwrWritesEachProfileRegister :
    0x0E < (0x0F#8).toNat ∧ 0x0E < (0x10#8).toNat ∧ 0x0E < (0xFF#8).toNat := by decide

theorem witness_UnassignedIndexIsIllegal :
    (0x11 ≤ (0x11#8).toNat ∧ (0x1F#8).toNat ≤ 0x1F) ∧ 0x26 ≤ (0x26#8).toNat ∧ 0x26 ≤ (0xFF#8).toNat := by
  decide

theorem witness_CfgrdOfPending :
    (refAt .classifyingBitHalf 0#7 0#64 350#32).dec.step = .classifyingBitHalf := by decide

theorem witness_CfgrdReadsWhatCfgwrWrote : (0x0E#8).toNat ≤ 0x0E ∧ (0x00#8).toNat ≤ 0x0E := by decide

end Sys2Proof.Tests
end

