-- ==== Sys2Proof/Proofs/BitReversal.lean ====
section
/-! PROOFS. What REVB answers (00_scope.md R14, 42_bit_reversal.md R112). -/

namespace Sys2Proof.Machine

/-- A width the reversal covers: the OK header, then the reversed value with its low word first. -/
theorem exec_revb_of_le {w : Nat} (v : Key) (s : State) (h : w ≤ 64) :
    exec (.revb w v) s = .next
      { s with
        output := s.output ++
          [0x20000000#32, (reverseBits v w).setWidth 32, (reverseBits v w >>> 32).setWidth 32] } := by
  rw [exec, execRevb_of_le v s h, respond, okWords, loWord_eq, hiWord_eq]
  rfl

/-- A width above the reversal's: the ILLEGAL header alone. -/
theorem exec_revb_of_gt {w : Nat} (v : Key) (s : State) (h : 64 < w) :
    exec (.revb w v) s = .next { s with output := s.output ++ [0x20000002#32] } := by
  rw [exec, execRevb_of_gt v s h, raiseIllegal, respond, illegalWords]
  rfl

/-- Settles O41: the value answered is `reverseBits v w`, whose bits `reverseBits_getLsbD` gives. -/
theorem revbReversesTheLowBits : Obligations.RevbReversesTheLowBits := by
  intro s w v
  constructor
  · intro h
    exact ⟨reverseBits v w, reverseBits_getLsbD v h, exec_revb_of_le v s h⟩
  · exact exec_revb_of_gt v s

end Sys2Proof.Machine
end

