-- ==== Sys2Proof/Proofs/RegisterRead.lean ====
section
/-! PROOFS. What CFGRD answers at each index, and that an unassigned index is refused (10_state.md R45 to R51,
43_register_access.md R115, R116). -/

namespace Sys2Proof.Machine

/-! ## CFGRD and CFGWR in response words -/

/-- An assigned index: the OK header, then the register's word; a free value shown counts as drawn. -/
theorem exec_cfgrd_of_assigned (r : CfgReg) (s : State) :
    exec (.cfgrd (cfgIndex r)) s = .next
      { s with
        output := s.output ++ [0x31000000#32, cfgRead s (Config.freeWord s.draws) r]
        draws := s.draws + cfgDraws s r } := by
  rw [exec, execCfgrd_of_assigned, respond, okWords]
  rfl

/-- A register that shows no free value: the read answers its word `w` and changes nothing else. -/
theorem exec_cfgrd_of_no_draw {r : CfgReg} {s : State} {w : Word} (hdraw : cfgDraws s r = 0)
    (hread : cfgRead s (Config.freeWord s.draws) r = w) :
    exec (.cfgrd (cfgIndex r)) s = .next { s with output := s.output ++ [0x31000000#32, w] } := by
  rw [exec_cfgrd_of_assigned, hdraw, hread, Nat.add_zero]

theorem exec_cfgrd_profile (r : ProfileReg) (s : State) :
    exec (.cfgrd (cfgIndex (.profile r))) s = .next
      { s with output := s.output ++ [0x31000000#32, profGet s.prof r] } :=
  exec_cfgrd_of_no_draw (r := .profile r) rfl rfl

theorem exec_cfgrd_of_unassigned {a : BitVec 8} (s : State) (h : cfgRegAt a = none) :
    exec (.cfgrd a) s = .next { s with output := s.output ++ [0x31000002#32] } := by
  rw [exec, execCfgrd_of_unassigned s h, raiseIllegal, respond, illegalWords]
  rfl

theorem exec_cfgwr_of_not_profile {a : BitVec 8} (v : Word) (s : State)
    (h : ∀ r, cfgRegAt a ≠ some (.profile r)) :
    exec (.cfgwr a v) s = .next { s with output := s.output ++ [0x30000002#32] } := by
  rw [exec, execCfgwr_of_not_profile v s h, raiseIllegal, respond, illegalWords]
  rfl

/-! ## The words of the views

Each `h` below reads the word's 32 bits as the sum of its fields' widths, the form the append lemma needs. -/

theorem toNat_append_eq_add {m n : Nat} (x : BitVec m) (y : BitVec n) :
    (x ++ y).toNat = 2 ^ n * x.toNat + y.toNat := by
  rw [BitVec.toNat_append, Nat.shiftLeft_eq, Nat.mul_comm, Nat.two_pow_add_eq_or_of_lt y.isLt]

theorem decStatusWord_toNat (d : Decoder) :
    (decStatusWord d).toNat = (stepCode d.step).toNat + 2 ^ 8 * d.count.toNat := by
  have h : (decStatusWord d).toNat = (0#17 ++ d.count ++ 0#6 ++ stepCode d.step).toNat := rfl
  rw [h]
  simp only [toNat_append_eq_add, BitVec.toNat_ofNat]
  omega

theorem encStatusWord_toNat (e : Encoder) :
    (encStatusWord e).toNat =
      e.running.toNat + 2 ^ 8 * e.cursor.toNat + 2 ^ 16 * e.len.toNat := by
  have h : (encStatusWord e).toNat =
    (0#8 ++ e.len ++ e.cursor ++ 0#7 ++ BitVec.ofBool e.running).toNat := rfl
  rw [h]
  simp only [toNat_append_eq_add, BitVec.toNat_ofNat, BitVec.toNat_ofBool]
  omega

/-! ## Assigned indices -/

/-- The three ranges the assigned indices lie in (10_state.md R29, R45 to R50). -/
theorem cfgIndex_range (r : CfgReg) :
    (cfgIndex r).toNat ≤ 0x0E ∨ (cfgIndex r).toNat = 0x10 ∨
      0x20 ≤ (cfgIndex r).toNat ∧ (cfgIndex r).toNat ≤ 0x25 := by
  cases r with
  | profile r => exact .inl (cfgIndex_profile_le r)
  | capacity => exact .inr (.inl rfl)
  | status v => cases v <;> decide

/-- The indices of 10_state.md R51 hold no register. -/
theorem cfgRegAt_eq_none_of_unassigned {a : BitVec 8}
    (h : a = 0x0F#8 ∨ 0x11 ≤ a.toNat ∧ a.toNat ≤ 0x1F ∨ 0x26 ≤ a.toNat) : cfgRegAt a = none := by
  cases hr : cfgRegAt a with
  | none => rfl
  | some r =>
    obtain rfl := cfgRegAt_eq_some.mp hr
    have hrange := cfgIndex_range r
    have hgap : (cfgIndex r).toNat = 0x0F ∨ 0x11 ≤ (cfgIndex r).toNat ∧ (cfgIndex r).toNat ≤ 0x1F ∨
        0x26 ≤ (cfgIndex r).toNat := h.imp_left (congrArg BitVec.toNat)
    omega

/-! ## The obligations -/

/-- Settles O45: the views draw nothing, and their fields add up without overlap. -/
theorem cfgrdReadsTheStatusFields : Obligations.CfgrdReadsTheStatusFields := by
  intro s
  refine ⟨decStatusWord s.dec, encStatusWord s.enc,
    exec_cfgrd_of_no_draw (r := .status .decStatus) rfl rfl, ?_,
    exec_cfgrd_of_no_draw (r := .status .encStatus) rfl rfl, ?_⟩
  · rw [decStatusWord_toNat]
    cases s.dec.step <;> rfl
  · rw [encStatusWord_toNat]
    cases s.enc.running <;> rfl

/-- Settles O47: no register stands at these indices, so both commands are refused. -/
theorem unassignedIndexIsIllegal : Obligations.UnassignedIndexIsIllegal := by
  intro s a v ha
  have hnone := cfgRegAt_eq_none_of_unassigned ha
  exact ⟨exec_cfgrd_of_unassigned s hnone, exec_cfgwr_of_not_profile v s (by simp [hnone])⟩

/-- Settles O44: each index is that of its register, whose word `cfgRead` gives. -/
theorem cfgrdReadsEachRegister : Obligations.CfgrdReadsEachRegister := by
  intro s ok
  exact ⟨exec_cfgrd_profile .ts s, exec_cfgrd_profile .tl s, exec_cfgrd_profile .tol s,
    exec_cfgrd_profile .minb s, exec_cfgrd_profile .preCtl s, exec_cfgrd_profile .preKref s,
    exec_cfgrd_profile .preKwin s, exec_cfgrd_profile .sbCtl s, exec_cfgrd_profile .sbKwin s,
    exec_cfgrd_profile .cellKws s, exec_cfgrd_profile .cellKwl s, exec_cfgrd_profile .cellLvl s,
    exec_cfgrd_profile .eofKs s, exec_cfgrd_profile .eofKw s, exec_cfgrd_profile .hdrK s,
    exec_cfgrd_of_no_draw (r := .capacity) rfl (BitVec.ofNat_toNat 32 s.cap).symm,
    exec_cfgrd_of_no_draw (r := .status .decAccLo) rfl (loWord_eq s.dec.acc),
    exec_cfgrd_of_no_draw (r := .status .decAccHi) rfl (hiWord_eq s.dec.acc),
    exec_cfgrd_of_no_draw (r := .status .encRepeats) rfl rfl⟩

/-- Settles O46: outside ClassifyingBitHalf the word is a free value, and only the count of draws moves. -/
theorem cfgrdOfPending : Obligations.CfgrdOfPending := by
  intro s
  refine ⟨_, cfgRead s (Config.freeWord s.draws) (.status .decPending),
    exec_cfgrd_of_assigned (.status .decPending) s, rfl, ?_, rfl, rfl, rfl, rfl, rfl⟩
  intro hstep
  exact if_pos hstep

end Sys2Proof.Machine
end

