-- ==== Sys2Proof/Proofs/HeaderSelection.lean ====
section
/-! PROOFS. A header selects its command by mask and match, and the operands are fields of the header as a number
(30_encoding.md R70, R74). -/

namespace Sys2Proof

/-- The count field as a number: bits `[22:16]` (30_encoding.md R68, R74). -/
theorem hdrN_eq_div_mod (h : Word) : hdrN h = h.toNat / 2 ^ 16 % 2 ^ 7 := by
  rw [hdrN, BitVec.extractLsb'_toNat, Nat.shiftRight_eq_div_pow]

/-- The index field as a number: bits `[31:24]` (30_encoding.md R68, R74). -/
theorem hdrA_eq_ofNat_div (h : Word) : hdrA h = BitVec.ofNat 8 (h.toNat / 2 ^ 24) := by
  rw [hdrA, BitVec.extractLsb', Nat.shiftRight_eq_div_pow]

/-- Where the operands of an opcode give the command `i`, the header decodes to `i` exactly by that opcode's mask
and match words: `i` names its opcode, and meeting the words fixes the header's `OPC`. -/
theorem decode_eq_instr_iff_mask {o : Opcode} {h : Word} {args : List Word} {i : Instr}
    (hi : operands o h args = some i) :
    decode h args = .instr i ↔ h &&& opcodeMask o = opcodeMatch o := by
  rw [decode_eq_instr]
  constructor
  · rintro ⟨o', -, hmask, hi'⟩
    have heq : o' = o := (operands_opcode hi').symm.trans (operands_opcode hi)
    exact heq ▸ hmask
  · intro hmask
    exact ⟨o, opcode_of_mask hmask, hmask, hi⟩

/-- Settles O3: `decode_eq_instr_iff_mask` at each of the eight opcodes. -/
theorem headerSelectsByMaskAndMatch : Obligations.HeaderSelectsByMaskAndMatch := by
  intro h x y z
  rw [← hdrN_eq_div_mod, ← hdrA_eq_ofNat_div]
  exact ⟨decode_eq_instr_iff_mask (o := .feed) rfl, decode_eq_instr_iff_mask (o := .dreset) rfl,
    decode_eq_instr_iff_mask (o := .eload) rfl, decode_eq_instr_iff_mask (o := .estop) rfl,
    decode_eq_instr_iff_mask (o := .eyield) rfl, decode_eq_instr_iff_mask (o := .revb) rfl,
    decode_eq_instr_iff_mask (o := .cfgwr) rfl, decode_eq_instr_iff_mask (o := .cfgrd) rfl⟩

end Sys2Proof
end

