-- ==== Sys2Proof/Proofs/CommandResponse.lean ====
section
/-! PROOFS. Every command the port gives is answered by one response, and when each status is answered
(30_encoding.md R72, R73; 60_exceptions.md R120). -/

namespace Sys2Proof

/-- A decoded command echoes its own opcode (30_encoding.md R69). -/
theorem hdrOpc_of_decode {h : Word} {args : List Word} {i : Instr} (hd : decode h args = .instr i) :
    hdrOpc h = opcodeCode (instrOpcode i) := by
  obtain ⟨o, ho, -, hi⟩ := decode_eq_instr.mp hd
  rw [operands_opcode hi, ho]

/-- With the `k` words the port reads, the decoder has only the two causes of 60_exceptions.md R120 (log 10). -/
theorem decode_error_of_argCount {h : Word} {args : List Word} {e : DecodeError}
    (hk : args.length = argCount h) (hd : decode h args = .illegal e) :
    e = .unknownOpcode ∨ e = .malformedHeader := by
  unfold decode at hd
  split at hd
  · cases hd
    exact .inl rfl
  · rename_i o ho
    have hsome : (operands o h args).isSome :=
      operands_isSome (hk.trans (argCount_of_opcode (opcodeOf_eq_some.mp ho)))
    obtain ⟨i, hi⟩ := Option.isSome_iff_exists.mp hsome
    rw [hi] at hd
    split at hd
    · cases hd
    · cases hd
      exact .inr rfl

end Sys2Proof

namespace Sys2Proof.Machine

/-! ## Assigned indices -/

/-- Each index outside the unassigned ranges of 10_state.md R51 holds a register. -/
theorem exists_register_of_assigned {a : BitVec 8}
    (h : a.toNat ≤ 0x0E ∨ a.toNat = 0x10 ∨ 0x20 ≤ a.toNat ∧ a.toNat ≤ 0x25) :
    ∃ r, cfgIndex r = a := by
  obtain hprofile | hcap | ⟨hlo, hhi⟩ := h
  · obtain ⟨r, hr⟩ := exists_profile_of_le hprofile
    exact ⟨.profile r, hr⟩
  · exact ⟨.capacity, BitVec.eq_of_toNat_eq hcap.symm⟩
  · have all : ∀ n : Fin 6, ∃ v, cfgIndex (.status v) = BitVec.ofNat 8 (0x20 + n.val) := by
      intro n
      fin_cases n
      exacts [⟨.decStatus, rfl⟩, ⟨.decAccLo, rfl⟩, ⟨.decAccHi, rfl⟩, ⟨.decPending, rfl⟩,
        ⟨.encStatus, rfl⟩, ⟨.encRepeats, rfl⟩]
    obtain ⟨v, hv⟩ := all ⟨a.toNat - 0x20, by omega⟩
    exact ⟨.status v, by rw [hv, Nat.add_sub_cancel' hlo, BitVec.ofNat_toNat, BitVec.setWidth_eq]⟩

/-- An index that holds no register lies in the ranges of 10_state.md R51. -/
theorem unassigned_of_cfgRegAt_eq_none {a : BitVec 8} (h : cfgRegAt a = none) :
    a = 0x0F#8 ∨ 0x11 ≤ a.toNat ∧ a.toNat ≤ 0x1F ∨ 0x26 ≤ a.toNat := by
  by_contra hout
  rw [← BitVec.toNat_inj, show (0x0F#8).toNat = 0x0F from rfl] at hout
  obtain ⟨r, rfl⟩ := exists_register_of_assigned (a := a) (by omega)
  rw [cfgRegAt_cfgIndex] at h
  cases h

/-- An index that holds no profile register lies above them (10_state.md R29). -/
theorem lt_of_not_profile {a : BitVec 8} (h : ¬∃ r, cfgRegAt a = some (.profile r)) :
    0x0E < a.toNat := by
  by_contra hle
  obtain ⟨r, hr⟩ := exists_profile_of_le (Nat.le_of_not_lt hle)
  exact h ⟨r, cfgRegAt_eq_some.mpr hr⟩

/-! ## The header's reserved and flag bits -/

theorem responseHeader_reserved_7_4 (r : Response) : (responseHeader r).extractLsb' 4 4 = 0#4 := by
  apply BitVec.eq_of_getLsbD_eq
  intro i hi
  rw [BitVec.getLsbD_extractLsb', responseHeader_getLsbD]
  simp [show 4 + i < 8 by omega]

theorem responseHeader_reserved_15_11 (r : Response) : (responseHeader r).extractLsb' 11 5 = 0#5 := by
  apply BitVec.eq_of_getLsbD_eq
  intro i hi
  have h : ∀ m, m ≤ 11 → ¬11 + i < m := fun m hm => by omega
  rw [BitVec.getLsbD_extractLsb', responseHeader_getLsbD]
  simp [h, show 11 + i < 16 by omega]

theorem responseHeader_reserved_23 (r : Response) : (responseHeader r).getLsbD 23 = false := by
  rw [responseHeader_getLsbD]
  simp

/-- `F0` and `F1` as one field. -/
theorem responseHeader_f1_f0 (r : Response) :
    (responseHeader r).extractLsb' 8 2 = BitVec.ofBool r.f1 ++ BitVec.ofBool r.f0 := by
  apply BitVec.eq_of_getLsbD_eq
  intro i hi
  rw [BitVec.getLsbD_extractLsb', responseHeader_getLsbD, BitVec.getLsbD_append]
  obtain rfl | rfl : i = 0 ∨ i = 1 := by omega
  · simp
  · simp

/-! ## The response of one command -/

/-- What may end a command that decodes to `d`, at capacity `cap`, with the status and data of `r`: OK with the
data words of the opcode map, FAIL of an ELOAD on capacity, ILLEGAL for a cause of 60_exceptions.md R120
(30_encoding.md R69, R73). -/
def StatusJustified (cap : BitVec 8) (d : Decoded) (r : Response) : Prop :=
  (r.status = .ok ∧ ∃ i, d = .instr i ∧ r.data.length = okDataWords i) ∨
  (r.status = .fail ∧ r.data = [] ∧ ∃ n key rep, d = .instr (.eload n key rep) ∧ cap.toNat < 2 * n + 2) ∨
  (r.status = .illegal ∧ r.data = [] ∧
    (d = .illegal .unknownOpcode ∨ d = .illegal .malformedHeader ∨
      (∃ w v, d = .instr (.revb w v) ∧ 64 < w) ∨
      (∃ a v, d = .instr (.cfgwr a v) ∧ 0x0E < a.toNat) ∨
      ∃ a, d = .instr (.cfgrd a) ∧
        (a = 0x0F#8 ∨ 0x11 ≤ a.toNat ∧ a.toNat ≤ 0x1F ∨ 0x26 ≤ a.toNat)))

/-- `r` is a response that 30_encoding.md R72, R73 and R75 allow to a command of opcode `opc` that decodes to
`d`. -/
structure Answers (cap : BitVec 8) (opc : BitVec 8) (d : Decoded) (r : Response) : Prop where
  echo : r.echo = opc
  feedOnly : opc ≠ 0x01#8 → r.f2 = false ∧ r.rn = 0#7
  feedOrEyield : opc ≠ 0x01#8 ∧ opc ≠ 0x12#8 → r.f1 = false ∧ r.f0 = false
  status : StatusJustified cap d r

/-- A response that sets no flag field needs only its status justified. -/
theorem answers_of_no_flags {cap opc : BitVec 8} {d : Decoded} {st : Status} {data : List Word}
    (h : StatusJustified cap d { status := st, echo := opc, data := data }) :
    Answers cap opc d { status := st, echo := opc, data := data } where
  echo := rfl
  feedOnly _ := ⟨rfl, rfl⟩
  feedOrEyield _ := ⟨rfl, rfl⟩
  status := h

/-- An EYIELD response sets `F0` and `F1` alone (30_encoding.md R75). -/
theorem answers_eyield (cap : BitVec 8) (valid : Bool) (level : Level) (d : Word) :
    Answers cap 0x12#8 (.instr .eyield)
      { status := .ok, f0 := valid, f1 := level, echo := 0x12#8, data := [d] } where
  echo := rfl
  feedOnly _ := ⟨rfl, rfl⟩
  feedOrEyield h := absurd rfl h.2
  status := .inl ⟨rfl, .eyield, rfl, rfl⟩

/-- A FEED response may set every flag field (30_encoding.md R75). -/
theorem answers_feed (cap : BitVec 8) (l : Level) (d : Word) (emit : Option Frame) (bit : Option Bool) :
    Answers cap 0x01#8 (.instr (.feed l d)) (feedResponse emit bit) where
  echo := rfl
  feedOnly h := absurd rfl h
  feedOrEyield h := absurd rfl h.1
  status := .inl ⟨rfl, .feed l d, rfl, rfl⟩

/-- Everything an execution can answer: one response, allowed to its command. -/
theorem exec_answers {i : Instr} {s t : State} (h : exec i s = .next t) :
    ∃ r, t.output = s.output ++ responseWords r ∧
      Answers s.cap (opcodeCode (instrOpcode i)) (.instr i) r := by
  cases i with
  | feed l d =>
    cases h
    exact ⟨_, rfl, answers_feed s.cap l d _ _⟩
  | dreset =>
    cases h
    exact ⟨_, rfl, answers_of_no_flags (.inl ⟨rfl, _, rfl, rfl⟩)⟩
  | estop =>
    cases h
    exact ⟨_, rfl, answers_of_no_flags (.inl ⟨rfl, _, rfl, rfl⟩)⟩
  | eload n key rep =>
    by_cases hfit : s.cap.toNat < waveLen n
    · rw [exec, execEload_of_not_fits key rep hfit] at h
      cases h
      exact ⟨_, rfl, answers_of_no_flags (.inr (.inl ⟨rfl, rfl, n, key, rep, rfl, hfit⟩))⟩
    · rw [exec, execEload_of_fits key rep (Nat.le_of_not_lt hfit)] at h
      cases h
      exact ⟨_, rfl, answers_of_no_flags (.inl ⟨rfl, _, rfl, rfl⟩)⟩
  | eyield =>
    by_cases hidle : s.enc.repeats = 0#32 ∨ s.enc.running = false
    · rw [exec, execEyield_of_idle hidle] at h
      cases h
      exact ⟨_, rfl, answers_eyield s.cap false _ _⟩
    · rw [not_or, Bool.not_eq_false] at hidle
      obtain ⟨hrep, hrun⟩ := hidle
      cases hwave : waveRead s.enc.wave s.enc.cursor with
      | none =>
        rw [exec, execEyield_of_outside hrep hrun hwave] at h
        cases h
      | some e =>
        rw [exec, execEyield_of_element hrep hrun hwave] at h
        cases h
        exact ⟨_, rfl, answers_eyield s.cap true _ _⟩
  | revb w v =>
    by_cases hw : 64 < w
    · rw [exec, execRevb_of_gt v s hw] at h
      cases h
      exact ⟨_, rfl, answers_of_no_flags
        (.inr (.inr ⟨rfl, rfl, .inr (.inr (.inl ⟨w, v, rfl, hw⟩))⟩))⟩
    · rw [exec, execRevb_of_le v s (Nat.le_of_not_lt hw)] at h
      cases h
      exact ⟨_, rfl, answers_of_no_flags (.inl ⟨rfl, _, rfl, rfl⟩)⟩
  | cfgwr a v =>
    by_cases hprofile : ∃ r, cfgRegAt a = some (.profile r)
    · obtain ⟨r, hr⟩ := hprofile
      obtain rfl := cfgRegAt_eq_some.mp hr
      rw [exec, execCfgwr_of_profile] at h
      cases h
      exact ⟨_, rfl, answers_of_no_flags (.inl ⟨rfl, _, rfl, rfl⟩)⟩
    · rw [exec, execCfgwr_of_not_profile v s (not_exists.mp hprofile)] at h
      cases h
      exact ⟨_, rfl, answers_of_no_flags (.inr (.inr
        ⟨rfl, rfl, .inr (.inr (.inr (.inl ⟨a, v, rfl, lt_of_not_profile hprofile⟩)))⟩))⟩
  | cfgrd a =>
    cases hreg : cfgRegAt a with
    | none =>
      rw [exec, execCfgrd_of_unassigned s hreg] at h
      cases h
      exact ⟨_, rfl, answers_of_no_flags (.inr (.inr
        ⟨rfl, rfl, .inr (.inr (.inr (.inr ⟨a, rfl, unassigned_of_cfgRegAt_eq_none hreg⟩)))⟩))⟩
    | some r =>
      obtain rfl := cfgRegAt_eq_some.mp hreg
      rw [exec, execCfgrd_of_assigned] at h
      cases h
      exact ⟨_, rfl, answers_of_no_flags (.inl ⟨rfl, _, rfl, rfl⟩)⟩

/-- Everything a command of the port can answer: one response, allowed to what its words decode to. -/
theorem step_command_answers {s t : State} {h : Word} {args : List Word} {rest : List Input}
    (hfetch : fetch s.input = .command h args rest) (hstep : step s = .next t) :
    ∃ r, t.output = s.output ++ responseWords r ∧ Answers s.cap (hdrOpc h) (decode h args) r := by
  obtain ⟨hwait, -⟩ | ⟨_, hreset, -⟩ | ⟨_, _, _, i, hcmd, hd, hexec⟩ | ⟨_, _, _, e, hcmd, hd, rfl⟩ :=
    step_cases hstep
  · rw [hfetch] at hwait
    cases hwait
  · rw [hfetch] at hreset
    cases hreset
  · rw [hfetch] at hcmd
    cases hcmd
    rw [hdrOpc_of_decode hd, hd]
    exact exec_answers (s := setInput rest s) hexec
  · rw [hfetch] at hcmd
    cases hcmd
    obtain ⟨hk, -⟩ := fetch_eq_command hfetch
    rw [hd]
    refine ⟨_, rfl, answers_of_no_flags (.inr (.inr ⟨rfl, rfl, ?_⟩))⟩
    obtain rfl | rfl := decode_error_of_argCount hk hd
    · exact .inl rfl
    · exact .inr (.inl rfl)

/-- Settles O20: the fields of `step_command_answers`, read from the header word. -/
theorem everyCommandAnswersOneResponse : Obligations.EveryCommandAnswersOneResponse := by
  intro s t h args rest hfetch hstep
  obtain ⟨r, hout, hecho, hfeed, hflags, hstatus⟩ := step_command_answers hfetch hstep
  refine ⟨responseHeader r, r.data, hout, responseHeader_reserved_7_4 r,
    responseHeader_reserved_15_11 r, responseHeader_reserved_23 r,
    (responseHeader_echo r).trans hecho, ?_, ?_, ?_⟩
  · rw [responseHeader_f2, responseHeader_rn]
    exact hfeed
  · intro hopc
    obtain ⟨hf1, hf0⟩ := hflags hopc
    rw [responseHeader_f1_f0, hf1, hf0]
    rfl
  · rw [responseHeader_status]
    obtain ⟨hst, hok⟩ | ⟨hst, hfail⟩ | ⟨hst, hillegal⟩ := hstatus
    · exact .inl ⟨congrArg statusCode hst, hok⟩
    · exact .inr (.inl ⟨congrArg statusCode hst, hfail⟩)
    · exact .inr (.inr ⟨congrArg statusCode hst, hillegal⟩)

end Sys2Proof.Machine
end

