-- ==== Sys2Proof/Proofs/TimingClassifier.lean ====
section
/-! PROOFS. The derived quantities in register words, and the short and long tests as strict windows
(40_decoder.md R80, R81). -/

namespace Sys2Proof.Machine

/-- `REFSEL` as a number: bit 1 (10_state.md R37). -/
theorem sbRefsel_iff (p : Profile) : sbRefsel p = true ↔ p.sbCtl.toNat / 2 % 2 = 1 := by
  rw [sbRefsel, ← BitVec.testBit_toNat, Nat.testBit_eq_decide_div_mod_eq, decide_eq_true_eq, pow_one]

theorem winShort_eq (p : Profile) : winShort p = p.cellKws.toNat % 2 ^ 16 * p.tol.toNat := by
  rw [winShort, kField_eq]

theorem winLong_eq (p : Profile) : winLong p = p.cellKwl.toNat % 2 ^ 16 * p.tol.toNat := by
  rw [winLong, kField_eq]

theorem within_eq_false_iff {d ref win : Nat} : within d ref win = false ↔ ¬Near d ref win := by
  rw [← Bool.not_eq_true, within_iff]

/-- Settles O25: each K field is the low half of its register. -/
theorem derivedQuantitiesOfTheProfile : Obligations.DerivedQuantitiesOfTheProfile := by
  intro p
  refine ⟨?_, ?_, ?_, ?_, winShort_eq p, winLong_eq p, ?_⟩
  · rw [preRef, kField_eq]
  · rw [preWin, kField_eq]
  · simp only [sbRef, sbRefsel_iff]
  · rw [sbWin, kField_eq]
  · rw [eofThr, kField_eq, kField_eq]

/-- Settles O24: both tests are `within`, whose boundary on either side is linear arithmetic. -/
theorem shortAndLongAreStrictWindows : Obligations.ShortAndLongAreStrictWindows := by
  constructor
  · intro p d
    rw [isShort_iff, isLong_iff, winShort_eq, winLong_eq]
    exact ⟨Iff.rfl, Iff.rfl⟩
  · intro ref win
    simp only [within_iff, within_eq_false_iff]
    omega

end Sys2Proof.Machine
end

