-- ==== Sys2Proof/Proofs/DecoderCommands.lean ====
section
/-! PROOFS. What FEED and DRESET make of the decoder and what they answer (40_decoder.md R89 to R91, R94, R97,
R98). -/

namespace Sys2Proof.Machine

/-! ## FEED in terms of the decoder's step -/

theorem exec_feed (s : State) (l : Level) (d : Word) :
    exec (.feed l d) s = .next
      { s with
        dec := (decStep s.prof s.dec l d).dec
        output := s.output ++
          responseWords (feedResponse (decStep s.prof s.dec l d).emit (decStep s.prof s.dec l d).bit) } :=
  rfl

/-- A pulse that ends no frame and appends no bit answers the OK header with key 0. -/
theorem exec_feed_of_unreported {s : State} {l : Level} {d : Word} {dec : Decoder}
    (h : decStep s.prof s.dec l d = { dec := dec }) :
    exec (.feed l d) s = .next
      { s with dec := dec, output := s.output ++ [0x01000000#32, 0#32, 0#32] } := by
  rw [exec_feed, h, feedResponse_none]

/-- The response that reports a frame: `EMIT` with the bit count, then the key, low word first. -/
theorem feedResponse_frame (f : Frame) :
    responseWords (feedResponse (some f) none) =
      [0x01#8 ++ 0#1 ++ f.bits ++ 0x0100#16, f.key.setWidth 32, (f.key >>> 32).setWidth 32] := by
  have hheader : responseHeader (feedResponse (some f) none) = 0x01#8 ++ 0#1 ++ f.bits ++ 0x0100#16 := by
    apply BitVec.eq_of_toNat_eq
    have h : (responseHeader (feedResponse (some f) none)).toNat =
      (0x01#8 ++ 0#1 ++ f.bits ++ 0#5 ++ 0#1 ++ 0#1 ++ 1#1 ++ 0#4 ++ 0#4).toNat := rfl
    rw [h]
    simp only [toNat_append_eq_add, BitVec.toNat_ofNat]
    omega
  rw [responseWords, hheader, ← loWord_eq, ← hiWord_eq]
  rfl

/-! ## The decoder's step, state by state -/

/-- Idle (40_decoder.md R89): only the state moves, and only for a preamble. -/
theorem decStep_of_idle {dec : Decoder} (p : Profile) (l : Level) (d : Word) (hs : dec.step = .idle) :
    decStep p dec l d =
      { dec := { dec with step := if preambleMatch p l d then .foundPreamble else .idle } } := by
  rw [decStep, hs]
  cases hpre : preambleMatch p l d with
  | true => simp [fedIdle, hpre]
  | false => simp [fedIdle, hpre, ← hs]

/-- FoundPreamble (40_decoder.md R90): the start bit, then a held preamble, else Idle. -/
theorem decStep_of_foundPreamble {dec : Decoder} (p : Profile) (l : Level) (d : Word)
    (hs : dec.step = .foundPreamble) :
    decStep p dec l d =
      { dec :=
          if startMatch p l d then { dec with step := .awaitingBitHalf, acc := 0#64, count := 0#7 }
          else if preHold p && preambleMatch p l d then dec
          else { dec with step := .idle } } := by
  rw [decStep, hs]
  simp only [fedFoundPreamble]
  split
  · rfl
  · split <;> rfl

/-- AwaitingBitHalf above `EOF_THR` (40_decoder.md R86): the frame ends. -/
theorem decStep_of_frame_end {p : Profile} {dec : Decoder} {d : Word} (l : Level)
    (hs : dec.step = .awaitingBitHalf) (heof : eofThr p < d.toNat) :
    decStep p dec l d = completeFrame p dec := by
  rw [decStep, hs]
  exact if_pos (isEof_iff.mpr heof)

/-- AwaitingBitHalf up to `EOF_THR` (40_decoder.md R91): a first half, unless its level is wrong. -/
theorem decStep_of_first_half {p : Profile} {dec : Decoder} {d : Word} (l : Level)
    (hs : dec.step = .awaitingBitHalf) (hle : d.toNat ≤ eofThr p) :
    decStep p dec l d =
      { dec :=
          if cellEn p && l != cellL1 p then discardFrame dec
          else { dec with step := .classifyingBitHalf, pending := d } } := by
  rw [decStep, hs]
  simp only [fedAwaitingBitHalf, isEof_iff, Nat.not_lt.mpr hle, if_false]
  split <;> rfl

/-! ## What FEED reports -/

/-- A frame is reported at a frame end with at least `MINB` bits and at no other pulse (40_decoder.md R94, R98). -/
theorem decStep_emit (p : Profile) (dec : Decoder) (l : Level) (d : Word) :
    (decStep p dec l d).emit =
      if dec.step = .awaitingBitHalf ∧ eofThr p < d.toNat ∧ minBits p ≤ dec.count.toNat then
        some { key := dec.acc, bits := dec.count }
      else none := by
  obtain ⟨hs, h⟩ | ⟨hs, h⟩ | ⟨hs, h⟩ | ⟨hs, h⟩ | ⟨hs, heof, h⟩ | ⟨hs, hle, h⟩ | ⟨hs, hc, b, -, h⟩ |
    ⟨hs, h⟩ := decStep_cases p dec l d
  · obtain hs | hs := hs <;> simp [h, hs]
  · simp [h, hs]
  · simp [h, hs]
  · simp [h, hs]
  · simp [h, hs, heof, completeFrame]
  · simp [h, hs, Nat.not_lt.mpr hle]
  · simp [h, hs, appendBit_of_lt b hc]
  · obtain ⟨hs, hle⟩ | hs := hs
    · simp [h, Nat.not_lt.mpr hle]
    · simp [h, hs]

theorem getLsbD_zero_ofNat_double_add (n : Nat) (b : Bool) :
    (BitVec.ofNat 64 (n * 2 + b.toNat)).getLsbD 0 = b := by
  rw [BitVec.getLsbD_ofNat, Nat.testBit_zero]
  cases b <;> simp

/-- A bit is reported exactly for the second half after which the decoder awaits the next cell, and it is then the
accumulator's bit 0 (40_decoder.md R93, R94). -/
theorem decStep_bit (p : Profile) (dec : Decoder) (l : Level) (d : Word) :
    (decStep p dec l d).bit =
      if dec.step = .classifyingBitHalf ∧ (decStep p dec l d).dec.step = .awaitingBitHalf then
        some ((decStep p dec l d).dec.acc.getLsbD 0)
      else none := by
  obtain ⟨hs, h⟩ | ⟨hs, h⟩ | ⟨hs, h⟩ | ⟨hs, h⟩ | ⟨hs, -, h⟩ | ⟨hs, -, h⟩ | ⟨hs, hc, b, -, h⟩ |
    ⟨-, h⟩ := decStep_cases p dec l d
  · obtain hs | hs := hs <;> simp [h, hs]
  · simp [h, hs]
  · simp [h, hs]
  · simp [h, hs]
  · simp [h, hs, completeFrame]
  · simp [h, hs]
  · rw [h, appendBit_of_lt b hc, getLsbD_zero_ofNat_double_add]
    exact (if_pos ⟨hs, rfl⟩).symm
  · simp [h, discardFrame]

/-! ## The obligations -/

/-- Settles O32: DRESET writes the decoder, its pending word a free value, and answers the OK header. -/
theorem dresetResetsTheDecoder : Obligations.DresetResetsTheDecoder := by
  intro s
  exact ⟨_, rfl, rfl, rfl, rfl, rfl, rfl, rfl, rfl, congrArg (s.output ++ ·) (okWords 0x02#8 [])⟩

/-- Settles O26, by `decStep_of_idle`. -/
theorem feedInIdleSeeksThePreamble : Obligations.FeedInIdleSeeksThePreamble := by
  intro s l d hs
  rw [exec_feed_of_unreported (decStep_of_idle s.prof l d hs)]
  simp only [preambleMatch_iff, preLvl]

/-- Settles O27, by `decStep_of_foundPreamble`. -/
theorem feedInFoundPreambleSeeksTheStartBit : Obligations.FeedInFoundPreambleSeeksTheStartBit := by
  intro s l d hs
  rw [exec_feed_of_unreported (decStep_of_foundPreamble s.prof l d hs)]
  simp only [Bool.and_eq_true, startMatch_iff, preambleMatch_iff, sbLvl, preHold, preLvl]

/-- Settles O28: the frame end reports `completeFrame`, and a first half reports nothing. -/
theorem feedInAwaitingBitHalf : Obligations.FeedInAwaitingBitHalf := by
  intro s l d hs
  constructor
  · intro heof
    rw [exec_feed, decStep_of_frame_end l hs heof, completeFrame, ← minBits_eq]
    by_cases hmin : minBits s.prof ≤ s.dec.count.toNat
    · simp only [if_pos hmin, feedResponse_frame]
    · simp only [if_neg hmin, feedResponse_none]
  · intro hle
    rw [exec_feed_of_unreported (decStep_of_first_half l hs hle)]
    simp only [Bool.and_eq_true, bne_iff_ne, cellEn, cellL1, discardFrame]

/-- Settles O30: the header's fields are those of `decStep_emit` and `decStep_bit`, and a reported frame is that of
`completeFrame`. -/
theorem feedEmitsOnlyAWholeFrame : Obligations.FeedEmitsOnlyAWholeFrame := by
  intro s l d
  have hemit := decStep_emit s.prof s.dec l d
  have hbit := decStep_bit s.prof s.dec l d
  refine ⟨_, _, _, _, exec_feed s l d, rfl, ?_⟩
  rw [responseHeader_status, responseHeader_f0, responseHeader_f1, responseHeader_f2, responseHeader_rn,
    ← minBits_eq]
  simp only [feedResponse]
  refine ⟨rfl, ?_, ?_, ?_, ?_, ?_, ?_, ?_, ?_⟩
  · simp [hemit]
  · intro hsome
    obtain ⟨hs, heof, hmin⟩ : s.dec.step = .awaitingBitHalf ∧ eofThr s.prof < d.toNat ∧
        minBits s.prof ≤ s.dec.count.toNat := by simpa [hemit] using hsome
    rw [decStep_of_frame_end l hs heof, completeFrame, if_pos hmin]
    exact ⟨rfl, joinWords_lo_hi s.dec.acc, rfl, rfl, rfl⟩
  · intro hnone
    rw [Option.isSome_eq_false_iff, Option.isNone_iff_eq_none] at hnone
    rw [hnone]
    exact ⟨rfl, rfl, rfl⟩
  · simp [hbit]
  · intro hsome
    have hhalf : s.dec.step = .classifyingBitHalf ∧
        (decStep s.prof s.dec l d).dec.step = .awaitingBitHalf := by simpa [hbit] using hsome
    rw [hbit, if_pos hhalf]
    rfl
  · intro hnone
    rw [Option.isSome_eq_false_iff, Option.isNone_iff_eq_none] at hnone
    rw [hnone, Option.getD_none]
  · rintro ⟨hs, heof⟩
    rw [decStep_of_frame_end l hs heof, completeFrame]
  · intro hs
    rw [decStep_of_idle s.prof l d hs]
    exact ⟨rfl, rfl⟩

end Sys2Proof.Machine
end

