-- ==== Sys2Proof/Proofs/EncoderCommands.lean ====
section
/-! PROOFS. What ELOAD, EYIELD and ESTOP make of the encoder and what they answer, and how many elements a load
delivers (41_encoder.md R101 to R108). -/

namespace Sys2Proof.Machine

/-! ## ELOAD -/

theorem sat32_toNat (v : Nat) : (sat32 v).toNat = min v (2 ^ 32 - 1) := by
  rw [sat32, BitVec.toNat_ofNat]
  omega

/-- The encoder a successful ELOAD leaves (41_encoder.md R104). -/
def eloaded (p : Profile) (n : Nat) (key : Key) (rep : Word) (e : Encoder) : Encoder where
  wave := waveLoad (build p key n) e.wave
  len := BitVec.ofNat 8 (waveLen n)
  cursor := 0#8
  repeats := rep
  running := true

theorem exec_eload_of_fits {n : Nat} {s : State} (key : Key) (rep : Word) (h : 2 * n + 2 ≤ s.cap.toNat) :
    exec (.eload n key rep) s = .next
      { s with enc := eloaded s.prof n key rep s.enc, output := s.output ++ [0x10000000#32] } := by
  rw [exec, execEload_of_fits key rep h, respond, okWords]
  rfl

/-- A length that fits the 8-bit capacity fits `ENC.LEN`. -/
theorem eloaded_len {n : Nat} {cap : BitVec 8} (p : Profile) (key : Key) (rep : Word) (e : Encoder)
    (h : 2 * n + 2 ≤ cap.toNat) : (eloaded p n key rep e).len.toNat = 2 * n + 2 := by
  simp only [eloaded, waveLen, BitVec.toNat_ofNat]
  omega

/-- The elements below `2N+2` are those of `build(key, N)`. -/
theorem eloaded_wave_built {n k : Nat} (p : Profile) (key : Key) (rep : Word) (e : Encoder)
    (h : k < 2 * n + 2) : (eloaded p n key rep e).wave[k]? = (build p key n)[k]? :=
  waveLoad_loaded (by rw [build_length]; exact h)

/-- The elements from `2N+2` on are kept. -/
theorem eloaded_wave_kept {n k : Nat} (p : Profile) (key : Key) (rep : Word) (e : Encoder)
    (h : 2 * n + 2 ≤ k) : (eloaded p n key rep e).wave[k]? = e.wave[k]? :=
  waveLoad_kept (by rw [build_length]; exact h)

/-- Settles O33: below `2N+2` the buffer holds `build(key, N)`, whose cells `bitCells_getElem?` gives. -/
theorem eloadBuildsTheWaveform : Obligations.EloadBuildsTheWaveform := by
  intro s n key rep h
  refine ⟨_, exec_eload_of_fits key rep h, eloaded_len _ _ _ _ h, rfl, rfl, rfl,
    ⟨(headerGap s.prof).duration, eloaded_wave_built _ _ _ _ (by omega), ?_⟩,
    eloaded_wave_built _ _ _ _ (by omega), ?_, fun k hk => eloaded_wave_kept _ _ _ _ hk,
    rfl, rfl, rfl, rfl, rfl, rfl⟩
  · rw [headerGap, sat32_toNat, kField_eq]
  · intro j hj
    obtain ⟨hmark, hspace⟩ := bitCells_getElem? s.prof key n j hj
    constructor
    · rw [eloaded_wave_built _ _ _ _ (by omega), ← hmark, build, Nat.add_comm]
      rfl
    · rw [eloaded_wave_built _ _ _ _ (by omega), ← hspace, build, Nat.add_comm]
      rfl

/-! ## ESTOP -/

/-- Settles O38: ESTOP is `setRunning false` and the OK header. -/
theorem estopStopsPlayback : Obligations.EstopStopsPlayback := by
  intro s
  rw [exec, execEstop, respond, okWords]
  rfl

/-! ## EYIELD -/

/-- With nothing to play, EYIELD answers the idle marker, of either level, and clears `ENC.RUNNING`. -/
theorem exec_eyield_of_idle {s : State} (h : s.enc.repeats = 0#32 ∨ s.enc.running = false) :
    ∃ t, exec .eyield s = .next t ∧ t.enc = { s.enc with running := false } ∧
      t.dec = s.dec ∧ t.prof = s.prof ∧ t.cap = s.cap ∧ t.input = s.input ∧
      (t.output = s.output ++ [0x12000000#32, 0#32] ∨ t.output = s.output ++ [0x12000200#32, 0#32]) := by
  refine ⟨_, execEyield_of_idle h, rfl, rfl, rfl, rfl, rfl, ?_⟩
  rw [respond_output, markerWords]
  cases Config.freeLevel s.draws
  · exact .inl rfl
  · exact .inr rfl

/-- While playing, EYIELD answers the element at the cursor and advances. -/
theorem exec_eyield_of_element {s : State} {e : Element} (hr : s.enc.repeats ≠ 0#32)
    (hrun : s.enc.running = true) (he : s.enc.wave[s.enc.cursor.toNat]? = some e) :
    exec .eyield s = .next { s with enc := advance s.enc, output := s.output ++ yieldWords e } := by
  rw [exec, execEyield_of_element hr hrun he, respond, elementWords]
  rfl

/-- The advance in numbers (41_encoder.md R106). -/
theorem advance_eq {e : Encoder} (hr : e.repeats ≠ 0#32) :
    advance e =
      if e.cursor.toNat + 1 = e.len.toNat then
        { e with cursor := 0#8, repeats := BitVec.ofNat 32 (e.repeats.toNat - 1) }
      else { e with cursor := BitVec.ofNat 8 (e.cursor.toNat + 1) } := by
  have hrepeats : e.repeats - 1#32 = BitVec.ofNat 32 (e.repeats.toNat - 1) := by bv_omega
  have hcursor : e.cursor + 1#8 = BitVec.ofNat 8 (e.cursor.toNat + 1) := by bv_omega
  rw [advance, hrepeats, hcursor]

/-- Settles O35: the invariant puts the cursor of a playing encoder below `ENC.LEN`, so inside the buffer. -/
theorem eyieldDeliversTheElement : Obligations.EyieldDeliversTheElement := by
  intro s
  refine ⟨exec_eyield_of_idle, fun hinv hr hrun => ?_⟩
  obtain ⟨-, -, ⟨hlength, hlen, hcursor, hplay⟩, -⟩ := hinv
  have hpos := hplay hrun
  have hlt := hcursor (by omega)
  have he := List.getElem?_eq_getElem (l := s.enc.wave) (i := s.enc.cursor.toNat) (by omega)
  exact ⟨_, he, by rw [exec_eyield_of_element hr hrun he, advance_eq hr]; rfl⟩

/-! ## Sequences of commands -/

theorem execAll_cons {i : Instr} {is : List Instr} {s t : State} (h : exec i s = .next t) :
    execAll (i :: is) s = execAll is t := by
  rw [execAll, h]

theorem execAll_append {is js : List Instr} {s t : State} (h : execAll is s = .next t) :
    execAll (is ++ js) s = execAll js t := by
  induction is generalizing s with
  | nil =>
    cases h
    rfl
  | cons i is ih =>
    rw [List.cons_append]
    cases hi : exec i s with
    | next s' =>
      rw [execAll_cons hi] at h ⊢
      exact ih h
    | fault _ => simp [execAll, hi] at h
    | refused _ => simp [execAll, hi] at h

/-! ## Repeat accounting -/

/-- The encoder plays the waveform `w`, at element `k`, with `r` passes still to complete. -/
structure Playing (w : List Element) (k r : Nat) (e : Encoder) : Prop where
  wave : ∀ i, i < w.length → e.wave[i]? = w[i]?
  len : e.len.toNat = w.length
  cursor : e.cursor.toNat = k
  repeats : e.repeats.toNat = r
  running : e.running = true

theorem eloaded_playing {n : Nat} {cap : BitVec 8} (p : Profile) (key : Key) (rep : Word) (e : Encoder)
    (h : 2 * n + 2 ≤ cap.toNat) : Playing (build p key n) 0 rep.toNat (eloaded p n key rep e) where
  wave := fun _ hi => waveLoad_loaded hi
  len := by rw [eloaded_len p key rep e h, build_length, waveLen]
  cursor := rfl
  repeats := rfl
  running := rfl

theorem Playing.repeats_ne_zero {w : List Element} {k r : Nat} {e : Encoder} (h : Playing w k (r + 1) e) :
    e.repeats ≠ 0#32 := by
  have := h.repeats
  bv_omega

/-- Inside a pass the cursor moves to the next element. -/
theorem Playing.advance_inside {w : List Element} {k r : Nat} {e : Encoder} (h : Playing w k (r + 1) e)
    (hk : k + 1 < w.length) : Playing w (k + 1) (r + 1) (advance e) := by
  have hr := h.repeats_ne_zero
  obtain ⟨hwave, hlen, hcursor, hrepeats, hrun⟩ := h
  rw [advance_eq hr, if_neg (by omega)]
  exact ⟨hwave, hlen, by rw [BitVec.toNat_ofNat]; omega, hrepeats, hrun⟩

/-- After the last element of a pass the cursor is back at element 0, with one pass fewer. -/
theorem Playing.advance_last {w : List Element} {k r : Nat} {e : Encoder} (h : Playing w k (r + 1) e)
    (hk : k + 1 = w.length) : Playing w 0 r (advance e) := by
  have hr := h.repeats_ne_zero
  obtain ⟨hwave, hlen, hcursor, hrepeats, hrun⟩ := h
  rw [advance_eq hr, if_pos (by omega)]
  exact ⟨hwave, hlen, rfl, by rw [BitVec.toNat_ofNat]; omega, hrun⟩

/-- EYIELD delivers the element in front of which a playing encoder stands. -/
theorem Playing.exec_eyield {done rest : List Element} {x : Element} {r : Nat} {s : State}
    (h : Playing (done ++ x :: rest) done.length (r + 1) s.enc) :
    exec .eyield s = .next { s with enc := advance s.enc, output := s.output ++ yieldWords x } := by
  apply exec_eyield_of_element h.repeats_ne_zero h.running
  rw [h.cursor, h.wave _ (by simp)]
  simp

/-- One EYIELD for each element that is left completes the pass. -/
theorem Playing.execAll_rest_of_pass (rest : List Element) {done : List Element} {x : Element} {r : Nat}
    {s : State} (h : Playing (done ++ x :: rest) done.length (r + 1) s.enc) :
    ∃ u, execAll (List.replicate (rest.length + 1) .eyield) s = .next u ∧
      u.output = s.output ++ (x :: rest).flatMap yieldWords ∧
      Playing (done ++ x :: rest) 0 r u.enc := by
  induction rest generalizing done x s with
  | nil =>
    refine ⟨_, execAll_cons h.exec_eyield, ?_, h.advance_last (by simp)⟩
    simp
  | cons y rest ih =>
    have hnext : Playing ((done ++ [x]) ++ y :: rest) (done ++ [x]).length (r + 1) (advance s.enc) := by
      simpa using h.advance_inside (by simp)
    obtain ⟨u, hexec, hout, hplaying⟩ :=
      ih (s := { s with enc := advance s.enc, output := s.output ++ yieldWords x }) hnext
    rw [← List.append_cons] at hplaying
    refine ⟨u, ?_, ?_, hplaying⟩
    · rw [List.length_cons, List.replicate_succ, execAll_cons h.exec_eyield, hexec]
    · rw [hout, List.flatMap_cons (x := x), List.append_assoc]

/-- `r` passes deliver the waveform `r` times and leave none. -/
theorem Playing.execAll_passes {x : Element} {w : List Element} (r : Nat) {s : State}
    (h : Playing (x :: w) 0 r s.enc) :
    ∃ u, execAll (List.replicate (r * (w.length + 1)) .eyield) s = .next u ∧
      u.output = s.output ++ (List.replicate r (x :: w)).flatten.flatMap yieldWords ∧
      Playing (x :: w) 0 0 u.enc := by
  induction r generalizing s with
  | zero => exact ⟨s, by rw [Nat.zero_mul]; rfl, by simp, h⟩
  | succ r ih =>
    obtain ⟨t, hpass, hout, ht⟩ := Playing.execAll_rest_of_pass w (done := []) h
    obtain ⟨u, hexec, hout', hu⟩ := ih ht
    refine ⟨u, ?_, ?_, hu⟩
    · rw [Nat.succ_mul, Nat.add_comm, List.replicate_add, execAll_append hpass, hexec]
    · rw [hout', hout, List.replicate_succ, List.flatten_cons, List.flatMap_append, List.append_assoc]

/-- Settles O39: the loaded encoder plays `build(key, N)` from element 0 with `R` passes to go
(`Playing.execAll_passes`), and with none left the next EYIELD is idle. -/
theorem repeatAccounting : Obligations.RepeatAccounting := by
  intro s t n key rep hfit hload
  rw [exec_eload_of_fits key rep hfit] at hload
  cases hload
  obtain ⟨u, hexec, hout, hu⟩ := Playing.execAll_passes rep.toNat
    (eloaded_playing s.prof key rep s.enc hfit)
    (s := { s with enc := eloaded s.prof n key rep s.enc, output := s.output ++ [0x10000000#32] })
  have hnone : u.enc.repeats = 0#32 := BitVec.eq_of_toNat_eq hu.repeats
  obtain ⟨v, hmarker, henc, -, -, -, -, hlevel⟩ := exec_eyield_of_idle (.inl hnone)
  have hlength : (startBit s.prof :: bitCells s.prof key n).length = 2 * n + 1 := by
    rw [List.length_cons, bitCells_length]
  rw [hlength] at hexec
  exact ⟨u, v, hexec, hout, hu.running, hnone, hmarker, by rw [henc], hlevel⟩

end Sys2Proof.Machine
end

