-- ==== Sys2Proof/Proofs/RoundTrip.lean ====
section
/-! PROOFS. The waveform the encoder builds, fed back to the decoder, is reported as the key
(41_encoder.md R111). -/

namespace Sys2Proof.Machine

/-! ## A sequence of pulses -/

/-- What a sequence of pulses makes of a decoder, and the frames it emits on the way (40_decoder.md R88). -/
def hear (p : Profile) (dec : Decoder) : List Element → Decoder × List Frame
  | [] => (dec, [])
  | e :: es =>
    let fed := decStep p dec e.level e.duration
    let rest := hear p fed.dec es
    (rest.1, fed.emit.toList ++ rest.2)

theorem hear_cons {p : Profile} {dec dec' : Decoder} {emit : Option Frame} {bit : Option Bool} (e : Element)
    (h : decStep p dec e.level e.duration = { dec := dec', emit := emit, bit := bit }) (es : List Element) :
    hear p dec (e :: es) = ((hear p dec' es).1, emit.toList ++ (hear p dec' es).2) := by
  rw [hear, h]

theorem hear_append (p : Profile) (dec : Decoder) (es fs : List Element) :
    hear p dec (es ++ fs) =
      ((hear p (hear p dec es).1 fs).1, (hear p dec es).2 ++ (hear p (hear p dec es).1 fs).2) := by
  induction es generalizing dec with
  | nil => rfl
  | cons e es ih => simp only [List.cons_append, hear, ih, List.append_assoc]

/-- A frame as `framesIn` reads it from a response. -/
def Frame.read (f : Frame) : Key × Nat := (f.key, f.bits.toNat)

/-- The response words of one FEED carry its emitted frame, and no other. -/
theorem framesIn_feedResponse (emit : Option Frame) (bit : Option Bool) (more : List Word) :
    framesIn (responseWords (feedResponse emit bit) ++ more) =
      emit.toList.map Frame.read ++ framesIn more := by
  have hwords : responseWords (feedResponse emit bit) ++ more =
      responseHeader (feedResponse emit bit) :: loWord ((emit.map Frame.key).getD 0#64) ::
        hiWord ((emit.map Frame.key).getD 0#64) :: more := rfl
  rw [hwords, framesIn, responseHeader_f0, responseHeader_rn]
  cases emit with
  | none => rfl
  | some f =>
    have hkey : hiWord f.key ++ loWord f.key = f.key := joinWords_lo_hi f.key
    simp [feedResponse, hkey, Frame.read]

/-- Feeding pulses moves the decoder alone, and the responses report the frames it emits. -/
theorem execAll_feedOf (es : List Element) (s : State) :
    ∃ out, execAll (es.map feedOf) s =
        .next { s with dec := (hear s.prof s.dec es).1, output := s.output ++ out } ∧
      framesIn out = (hear s.prof s.dec es).2.map Frame.read := by
  induction es generalizing s with
  | nil => exact ⟨[], by simp [execAll, hear], rfl⟩
  | cons e es ih =>
    let fed := decStep s.prof s.dec e.level e.duration
    let words := responseWords (feedResponse fed.emit fed.bit)
    obtain ⟨out, hexec, hframes⟩ := ih { s with dec := fed.dec, output := s.output ++ words }
    refine ⟨words ++ out, ?_, ?_⟩
    · rw [List.map_cons, feedOf, execAll_cons (exec_feed s e.level e.duration), hexec, List.append_assoc]
      rfl
    · rw [framesIn_feedResponse, hframes, hear, List.map_append]

/-! ## The encoder's elements at the decoder -/

/-- The conditions of 41_encoder.md R111 under which the decoder's shapes match the encoder's waveform. -/
structure Matched (p : Profile) : Prop where
  preamble : preambleMatch p false (headerGap p).duration = true
  start : startMatch p true p.tl = true
  short : isShort p p.ts = true
  long : isLong p p.tl = true
  exclusive : isLong p p.ts = false ∨ isShort p p.tl = false
  long_le : p.tl.toNat ≤ eofThr p
  short_le : p.ts.toNat ≤ eofThr p
  gap_gt : eofThr p < (headerGap p).duration.toNat
  levels : cellEn p = false ∨ cellL1 p = true ∧ cellL2 p = false

/-- The duration of the mark of a key bit (41_encoder.md R103). -/
def markOf (p : Profile) (b : Bool) : Word := if b then p.tl else p.ts

/-- The duration of the space of a key bit (41_encoder.md R103). -/
def spaceOf (p : Profile) (b : Bool) : Word := if b then p.ts else p.tl

theorem bitCell_eq (p : Profile) (b : Bool) :
    bitCell p b =
      [{ level := true, duration := markOf p b }, { level := false, duration := spaceOf p b }] := by
  cases b <;> rfl

theorem Matched.markOf_le {p : Profile} (hp : Matched p) (b : Bool) : (markOf p b).toNat ≤ eofThr p := by
  cases b
  · exact hp.short_le
  · exact hp.long_le

/-- (short, long) is tested first, so a cell of bit 1 needs one of its tests to fail for bit 0
(40_decoder.md R82). -/
theorem Matched.classify_cell {p : Profile} (hp : Matched p) (b : Bool) :
    classify p (markOf p b) (spaceOf p b) = some b := by
  cases b with
  | false => simp [classify, markOf, spaceOf, hp.short, hp.long]
  | true => obtain h | h := hp.exclusive <;> simp [classify, markOf, spaceOf, hp.short, hp.long, h]

/-- ClassifyingBitHalf with the checked level right, a classifiable cell and room for the bit. -/
theorem decStep_of_second_half {p : Profile} {dec : Decoder} {l : Level} {d : Word} {b : Bool}
    (hs : dec.step = .classifyingBitHalf) (hlevel : (cellEn p && l != cellL2 p) = false)
    (hb : classify p dec.pending d = some b) : decStep p dec l d = appendBit dec b := by
  simp [decStep, hs, fedClassifyingBitHalf, hlevel, hb]

/-- The decoder in AwaitingBitHalf with the low `n` key bits gathered, pending word `w`. -/
def gathered (key : Key) (n : Nat) (w : Word) : Decoder where
  step := .awaitingBitHalf
  acc := BitVec.ofNat 64 (key.toNat % 2 ^ n)
  count := BitVec.ofNat 7 n
  pending := w

theorem gathered_zero (key : Key) (w : Word) :
    gathered key 0 w = { step := .awaitingBitHalf, acc := 0#64, count := 0#7, pending := w } := by
  simp [gathered, Nat.mod_one]

/-- One more bit below: the low `n+1` bits of a key (20_memory.md R56). -/
theorem toNat_mod_two_pow_succ (key : Key) (n : Nat) :
    key.toNat % 2 ^ (n + 1) = (key >>> 1).toNat % 2 ^ n * 2 + (key.getLsbD 0).toNat := by
  rw [pow_succ', Nat.mod_mul, BitVec.toNat_ushiftRight, Nat.shiftRight_one, ← BitVec.testBit_toNat,
    Nat.toNat_testBit, pow_zero, Nat.div_one]
  omega

/-- A bit count fits `DEC.COUNT` (10_state.md R20). -/
theorem toNat_ofNat_count {n : Nat} (hn : n ≤ 64) : (BitVec.ofNat 7 n).toNat = n := by
  rw [BitVec.toNat_ofNat]
  omega

theorem appendBit_gathered {key : Key} {n : Nat} (w d : Word) (hn : n < 64) :
    appendBit { gathered (key >>> 1) n w with step := .classifyingBitHalf, pending := d } (key.getLsbD 0) =
      { dec := gathered key (n + 1) d, bit := some (key.getLsbD 0) } := by
  have hcount := toNat_ofNat_count hn.le
  have hacc : (BitVec.ofNat 64 ((key >>> 1).toNat % 2 ^ n)).toNat = (key >>> 1).toNat % 2 ^ n := by
    rw [BitVec.toNat_ofNat]
    exact Nat.mod_eq_of_lt (Nat.lt_of_le_of_lt (Nat.mod_le _ _) (key >>> 1).isLt)
  rw [appendBit_of_lt _ (by rw [gathered, hcount]; exact hn)]
  simp only [gathered, hacc, hcount, toNat_mod_two_pow_succ key n]

/-- A cell appends its bit. -/
theorem Matched.hear_bitCell {p : Profile} (hp : Matched p) (key : Key) {n : Nat} (w : Word) (hn : n < 64) :
    hear p (gathered (key >>> 1) n w) (bitCell p (key.getLsbD 0)) =
      (gathered key (n + 1) (markOf p (key.getLsbD 0)), []) := by
  have hmark : (cellEn p && true != cellL1 p) = false := by
    obtain h | ⟨h, -⟩ := hp.levels <;> simp [h]
  have hspace : (cellEn p && false != cellL2 p) = false := by
    obtain h | ⟨-, h⟩ := hp.levels <;> simp [h]
  have hfirst := decStep_of_first_half (dec := gathered (key >>> 1) n w) true rfl
    (hp.markOf_le (key.getLsbD 0))
  rw [hmark, if_neg Bool.false_ne_true] at hfirst
  have hsecond := decStep_of_second_half
    (dec := { gathered (key >>> 1) n w with
      step := .classifyingBitHalf, pending := markOf p (key.getLsbD 0) })
    rfl hspace (hp.classify_cell (key.getLsbD 0))
  rw [appendBit_gathered w _ hn] at hsecond
  rw [bitCell_eq, hear_cons _ hfirst, hear_cons _ hsecond]
  rfl

/-- The cells gather the low `n` key bits. -/
theorem Matched.hear_bitCells {p : Profile} (hp : Matched p) (key : Key) {n : Nat} (w : Word) (hn : n ≤ 64) :
    ∃ w', hear p (gathered key 0 w) (bitCells p key n) = (gathered key n w', []) := by
  induction n generalizing key with
  | zero => exact ⟨w, rfl⟩
  | succ n ih =>
    obtain ⟨w', hcells⟩ := ih (key >>> 1) (by omega)
    rw [gathered_zero] at hcells ⊢
    rw [bitCells_succ, hear_append, hcells, hp.hear_bitCell key w' (by omega)]
    exact ⟨_, rfl⟩

/-- After the header, from FoundPreamble, the start bit and the cells gather the key. -/
theorem Matched.hear_after_header {p : Profile} (hp : Matched p) (key : Key) {n : Nat} (hn : n ≤ 64)
    {dec : Decoder} (hs : dec.step = .foundPreamble) :
    ∃ w, hear p dec (startBit p :: bitCells p key n) = (gathered key n w, []) := by
  obtain ⟨w, hcells⟩ := hp.hear_bitCells key dec.pending hn
  have hstart := decStep_of_foundPreamble p true p.tl hs
  rw [if_pos hp.start, ← gathered_zero key dec.pending] at hstart
  exact ⟨w, by rw [hear_cons (startBit p) hstart, hcells]; rfl⟩

/-- The frame of the low `n` key bits (40_decoder.md R86). -/
def keyFrame (key : Key) (n : Nat) : Frame where
  key := BitVec.ofNat 64 (key.toNat % 2 ^ n)
  bits := BitVec.ofNat 7 n

theorem keyFrame_read (key : Key) {n : Nat} (hn : n ≤ 64) :
    (keyFrame key n).read = (BitVec.ofNat 64 (key.toNat % 2 ^ n), n) := by
  rw [Frame.read, keyFrame, toNat_ofNat_count hn]

/-- A pulse above `EOF_THR` reports the gathered key. -/
theorem decStep_gathered_of_frame_end {p : Profile} {key : Key} {n : Nat} (w : Word) (l : Level) {d : Word}
    (hn : n ≤ 64) (hmin : minBits p ≤ n) (heof : eofThr p < d.toNat) :
    decStep p (gathered key n w) l d =
      { dec := { step := .foundPreamble, acc := 0#64, count := 0#7, pending := w }
        emit := some (keyFrame key n) } := by
  rw [decStep_of_frame_end l rfl heof, completeFrame, if_pos]
  · rfl
  · rw [gathered, toNat_ofNat_count hn]
    exact hmin

/-- The first repeat, heard in Idle, gathers the key. -/
theorem Matched.hear_first_build {p : Profile} (hp : Matched p) (key : Key) {n : Nat} (hn : n ≤ 64)
    {dec : Decoder} (hs : dec.step = .idle) :
    ∃ w, hear p dec (build p key n) = (gathered key n w, []) := by
  have hheader := decStep_of_idle p false (headerGap p).duration hs
  rw [if_pos hp.preamble] at hheader
  obtain ⟨w, hrest⟩ := hp.hear_after_header key hn (dec := { dec with step := .foundPreamble }) rfl
  exact ⟨w, by rw [build, hear_cons (headerGap p) hheader, hrest]; rfl⟩

/-- Each repeat after it reports the key gathered before, and gathers it again. -/
theorem Matched.hear_next_build {p : Profile} (hp : Matched p) (key : Key) {n : Nat} (hn : n ≤ 64)
    (hmin : minBits p ≤ n) (w : Word) :
    ∃ w', hear p (gathered key n w) (build p key n) = (gathered key n w', [keyFrame key n]) := by
  have hheader := decStep_gathered_of_frame_end (key := key) w false hn hmin hp.gap_gt
  obtain ⟨w', hrest⟩ := hp.hear_after_header key hn
    (dec := { step := .foundPreamble, acc := 0#64, count := 0#7, pending := w }) rfl
  exact ⟨w', by rw [build, hear_cons (headerGap p) hheader, hrest]; rfl⟩

theorem Matched.hear_next_builds {p : Profile} (hp : Matched p) (key : Key) {n : Nat} (hn : n ≤ 64)
    (hmin : minBits p ≤ n) (r : Nat) (w : Word) :
    ∃ w', hear p (gathered key n w) (List.replicate r (build p key n)).flatten =
      (gathered key n w', List.replicate r (keyFrame key n)) := by
  induction r generalizing w with
  | zero => exact ⟨w, rfl⟩
  | succ r ih =>
    obtain ⟨w₁, hnext⟩ := hp.hear_next_build key hn hmin w
    obtain ⟨w₂, hrest⟩ := ih w₁
    exact ⟨w₂, by rw [List.replicate_succ, List.flatten_cons, hear_append, hnext, hrest]; rfl⟩

/-- `r + 1` repeats, heard in Idle, report `r` frames and leave the last one gathered. -/
theorem Matched.hear_builds {p : Profile} (hp : Matched p) (key : Key) {n : Nat} (hn : n ≤ 64)
    (hmin : minBits p ≤ n) (r : Nat) {dec : Decoder} (hs : dec.step = .idle) :
    ∃ w, hear p dec (List.replicate (r + 1) (build p key n)).flatten =
      (gathered key n w, List.replicate r (keyFrame key n)) := by
  obtain ⟨w₁, hfirst⟩ := hp.hear_first_build key hn hs
  obtain ⟨w₂, hrest⟩ := hp.hear_next_builds key hn hmin r w₁
  exact ⟨w₂, by rw [List.replicate_succ, List.flatten_cons, hear_append, hfirst, hrest]; rfl⟩

/-- Settles O40: the repeats report `r` frames (`Matched.hear_builds`), and the final pulse ends the last one. -/
theorem encodeDecodeRoundTrip : Obligations.EncodeDecodeRoundTrip := by
  intro s key n r l d hs hn _ _ _ hpre hstart hshort hlong hexcl htl hts hgap hmin hlevels heof
  have hp : Matched s.prof := ⟨hpre, hstart, hshort, hlong, hexcl, htl, hts, hgap, hlevels⟩
  obtain ⟨w, hhear⟩ := hp.hear_builds key hn hmin r hs
  obtain ⟨out, hexec, hframes⟩ :=
    execAll_feedOf (List.replicate (r + 1) (build s.prof key n)).flatten s
  rw [hhear] at hexec hframes
  refine ⟨_, _, out, _, hexec, rfl, ?_, exec_feed _ l d, rfl, ?_⟩
  · rw [hframes, List.map_replicate, keyFrame_read key hn]
  · rw [decStep_gathered_of_frame_end w l hn hmin heof, ← List.append_nil (responseWords _),
      framesIn_feedResponse, Option.toList_some, List.map_singleton, keyFrame_read key hn]
    rfl

end Sys2Proof.Machine
end

/-! PROOFS. Bit reversal done twice (42_bit_reversal.md R114). -/

namespace Sys2Proof.Machine

/-- Reversing twice keeps the low `w` bits and clears the others: below `w`, `i ↦ w - 1 - i` is its own inverse. -/
theorem reverseBits_reverseBits_getLsbD (v : Key) {w : Nat} (hw : w ≤ 64) (i : Nat) :
    (reverseBits (reverseBits v w) w).getLsbD i = (decide (i < w) && v.getLsbD i) := by
  rw [reverseBits_getLsbD _ hw, reverseBits_getLsbD _ hw]
  by_cases hi : i < w
  · have hmirror : w - 1 - (w - 1 - i) = i := by omega
    have hlt : w - 1 - i < w := by omega
    simp [hmirror, hlt]
  · simp [hi]

/-- Settles O42: `v mod 2^w` has exactly the bits that `reverseBits_reverseBits_getLsbD` gives. -/
theorem reversalIsAnInvolution : Obligations.ReversalIsAnInvolution := by
  intro w v hw
  apply Nat.eq_of_testBit_eq
  intro i
  rw [Nat.testBit_mod_two_pow, BitVec.testBit_toNat, BitVec.testBit_toNat]
  exact reverseBits_reverseBits_getLsbD v hw i

end Sys2Proof.Machine

/-! PROOFS. What CFGWR writes at each index (10_state.md R29, 43_register_access.md R115, R118). -/

namespace Sys2Proof.Machine

/-- A profile register's index: the register takes the value under its mask, and the OK header is answered. -/
theorem exec_cfgwr_profile (r : ProfileReg) (v : Word) (s : State) :
    exec (.cfgwr (cfgIndex (.profile r)) v) s = .next
      { s with prof := profSet s.prof r (v &&& wmask r), output := s.output ++ [0x30000000#32] } := by
  rw [exec, execCfgwr_of_profile, respond, okWords]
  rfl

/-- A register with no reserved bits takes the whole value (TS, TL and TOL, R118). -/
theorem exec_cfgwr_profile_of_full_mask {r : ProfileReg} (v : Word) (s : State)
    (hmask : wmask r = BitVec.allOnes 32) :
    exec (.cfgwr (cfgIndex (.profile r)) v) s = .next
      { s with prof := profSet s.prof r v, output := s.output ++ [0x30000000#32] } := by
  rw [exec_cfgwr_profile, hmask, BitVec.and_allOnes]

/-- No profile register stands above index 0x0E (10_state.md R29). -/
theorem cfgRegAt_ne_profile_of_lt {a : BitVec 8} (h : 0x0E < a.toNat) (r : ProfileReg) :
    cfgRegAt a ≠ some (.profile r) := by
  intro hr
  obtain rfl := cfgRegAt_eq_some.mp hr
  exact absurd h (Nat.not_lt.mpr (cfgIndex_profile_le r))

/-- Settles O43: each index up to 0x0E is that of its register, written under its mask; above them none stands. -/
theorem cfgwrWritesEachProfileRegister : Obligations.CfgwrWritesEachProfileRegister := by
  intro s v ok
  exact ⟨exec_cfgwr_profile_of_full_mask (r := .ts) v s rfl,
    exec_cfgwr_profile_of_full_mask (r := .tl) v s rfl,
    exec_cfgwr_profile_of_full_mask (r := .tol) v s rfl,
    exec_cfgwr_profile .minb v s, exec_cfgwr_profile .preCtl v s, exec_cfgwr_profile .preKref v s,
    exec_cfgwr_profile .preKwin v s, exec_cfgwr_profile .sbCtl v s, exec_cfgwr_profile .sbKwin v s,
    exec_cfgwr_profile .cellKws v s, exec_cfgwr_profile .cellKwl v s, exec_cfgwr_profile .cellLvl v s,
    exec_cfgwr_profile .eofKs v s, exec_cfgwr_profile .eofKw v s, exec_cfgwr_profile .hdrK v s,
    fun _ ha => exec_cfgwr_of_not_profile v s (cfgRegAt_ne_profile_of_lt ha)⟩

end Sys2Proof.Machine

/-! PROOFS. ELOAD on capacity, and that nothing else answers FAIL (41_encoder.md R105, 60_exceptions.md R122). -/

namespace Sys2Proof.Machine

/-- ELOAD on capacity: `ENC.RUNNING` is cleared, and the FAIL header is answered. -/
theorem exec_eload_of_not_fits {n : Nat} {s : State} (key : Key) (rep : Word) (h : s.cap.toNat < 2 * n + 2) :
    exec (.eload n key rep) s = .next
      { s with enc := { s.enc with running := false }, output := s.output ++ [0x10000001#32] } := by
  have hwords : responseWords { status := .fail, echo := 0x10#8 } = [0x10000001#32] := by decide
  rw [exec, execEload_of_not_fits key rep h, respond, hwords]
  rfl

/-- A legal `CAP` holds the waveform of no more than 64 bits (00_scope.md R7). -/
theorem lt_waveform_of_capLegal {cap : BitVec 8} {n : Nat} (hcap : CapLegal cap) (hn : 64 < n) :
    cap.toNat < 2 * n + 2 := by
  obtain ⟨-, hmax⟩ := hcap
  have hmax : cap.toNat ≤ 130 := hmax
  omega

theorem statusCode_eq_fail_iff {st : Status} : statusCode st = 1#4 ↔ st = .fail := by
  cases st <;> decide

/-- Of the three statuses a command may answer with, FAIL has one cause (60_exceptions.md R122). -/
theorem StatusJustified.eload_of_fail {cap : BitVec 8} {d : Decoded} {r : Response}
    (h : StatusJustified cap d r) (hfail : r.status = .fail) :
    ∃ n key rep, d = .instr (.eload n key rep) ∧ cap.toNat < 2 * n + 2 := by
  obtain ⟨hok, -⟩ | ⟨-, -, hcause⟩ | ⟨hillegal, -⟩ := h
  · rw [hok] at hfail
    cases hfail
  · exact hcause
  · rw [hillegal] at hfail
    cases hfail

/-- Settles O34: a FAIL status in the header is the status of the one response of `exec_answers`, which must be
justified. -/
theorem eloadFailsOnCapacity : Obligations.EloadFailsOnCapacity := by
  intro s
  constructor
  · rintro n key rep (hfit | ⟨hcap, hn⟩)
    · exact exec_eload_of_not_fits key rep hfit
    · exact exec_eload_of_not_fits key rep (lt_waveform_of_capLegal hcap hn)
  · intro i t h data hexec hout hstatus
    obtain ⟨r, hanswer, hr⟩ := exec_answers hexec
    obtain ⟨rfl, -⟩ : h = responseHeader r ∧ data = r.data := by
      rw [hout, responseWords] at hanswer
      exact List.cons.inj (List.append_cancel_left hanswer)
    rw [responseHeader_status, statusCode_eq_fail_iff] at hstatus
    obtain ⟨n, key, rep, hi, hcap⟩ := hr.status.eload_of_fail hstatus
    exact ⟨n, key, rep, Decoded.instr.inj hi, hcap⟩

end Sys2Proof.Machine

/-! PROOFS. The block after reset, before anything is configured: what CFGRD reads, and what FEED, EYIELD and ELOAD
do (70_reset_and_hazards.md R134 to R137). -/

namespace Sys2Proof.Machine

/-! ## The states after reset -/

theorem resetWith_afterReset (cap : BitVec 8) : (State.resetWith cap).AfterReset :=
  ⟨rfl, rfl, rfl, rfl, rfl, rfl, rfl, List.length_replicate, rfl⟩

theorem applyReset_afterReset (s : State) : (applyReset s).AfterReset :=
  ⟨rfl, rfl, rfl, rfl, rfl, rfl, rfl, applyReset_wave_length s, rfl⟩

/-- The reset input first at the port is the step (70_reset_and_hazards.md R133). -/
theorem step_of_reset {s : State} {rest : List Input} (h : fetch s.input = .reset rest) :
    step s = .next (applyReset (setInput rest s)) := by
  rw [step, h]

/-! ## Registers after reset -/

theorem profGet_zero (r : ProfileReg) : profGet Profile.zero r = 0#32 := by
  cases r <;> rfl

/-- Every status view but `DEC_PENDING` reads 0 (70_reset_and_hazards.md R136). -/
theorem State.AfterReset.statusRead_eq_zero {s : State} (h : s.AfterReset) (draw : Word) {v : StatusReg}
    (hv : v ≠ .decPending) : statusRead s draw v = 0#32 := by
  obtain ⟨hstep, hacc, hcount, hrun, hlen, hcursor, hrepeats, -, -⟩ := h
  cases v with
  | decStatus =>
    apply BitVec.eq_of_toNat_eq
    rw [statusRead, decStatusWord_toNat, hstep, hcount]
    rfl
  | decAccLo => rw [statusRead, hacc]; rfl
  | decAccHi => rw [statusRead, hacc]; rfl
  | decPending => exact absurd rfl hv
  | encStatus =>
    apply BitVec.eq_of_toNat_eq
    rw [statusRead, encStatusWord_toNat, hrun, hcursor, hlen]
    rfl
  | encRepeats => exact hrepeats

theorem State.AfterReset.cfgrd_profile_zero {s : State} (h : s.AfterReset) {a : BitVec 8}
    (ha : a.toNat ≤ 0x0E) :
    exec (.cfgrd a) s = .next { s with output := s.output ++ [0x31000000#32, 0#32] } := by
  obtain ⟨-, -, -, -, -, -, -, -, hprof⟩ := h
  obtain ⟨r, rfl⟩ := exists_profile_of_le ha
  rw [exec_cfgrd_profile, hprof, profGet_zero]

theorem State.AfterReset.cfgrd_status_zero {s : State} (h : s.AfterReset) {v : StatusReg}
    (hv : v ≠ .decPending) :
    exec (.cfgrd (cfgIndex (.status v))) s =
      .next { s with output := s.output ++ [0x31000000#32, 0#32] } := by
  have hdraws : cfgDraws s (.status v) = 0 := by
    cases v with
    | decPending => exact absurd rfl hv
    | _ => rfl
  exact exec_cfgrd_of_no_draw hdraws (h.statusRead_eq_zero _ hv)

/-- Settles O12: either way the state is as after reset, where every register but CAPACITY and `DEC_PENDING` reads 0. -/
theorem readsAfterReset : Obligations.ReadsAfterReset := by
  intro s hs
  have hreset : s.AfterReset := by
    obtain ⟨cap, rfl⟩ | ⟨before, rest, hfetch, hstep⟩ := hs
    · exact resetWith_afterReset cap
    · rw [step_of_reset hfetch] at hstep
      cases hstep
      exact applyReset_afterReset _
  refine ⟨?_, exec_cfgrd_of_no_draw (r := .capacity) rfl (BitVec.ofNat_toNat 32 s.cap).symm, ?_⟩
  · rintro a (hprofile | rfl | rfl | rfl | rfl | rfl)
    · exact hreset.cfgrd_profile_zero hprofile
    · exact hreset.cfgrd_status_zero (v := .decStatus) (by decide)
    · exact hreset.cfgrd_status_zero (v := .decAccLo) (by decide)
    · exact hreset.cfgrd_status_zero (v := .decAccHi) (by decide)
    · exact hreset.cfgrd_status_zero (v := .encStatus) (by decide)
    · exact hreset.cfgrd_status_zero (v := .encRepeats) (by decide)
  · obtain ⟨t, w, hexec, hout, -⟩ := cfgrdOfPending s
    exact ⟨t, w, hexec, hout⟩

/-! ## Commands before any configuration -/

/-- No pulse lies in a window of width 0 (00_scope.md R13). -/
theorem within_zero (d ref : Nat) : within d ref 0 = false := by
  rw [within_eq_false_iff]
  omega

/-- With every register 0, `PRE_WIN` is 0 and no pulse is a preamble (70_reset_and_hazards.md R137). -/
theorem preambleMatch_zero (l : Level) (d : Word) : preambleMatch Profile.zero l d = false := by
  have hwin : preWin Profile.zero = 0 := rfl
  rw [preambleMatch, hwin, within_zero, Bool.and_false]

/-- Idle stays Idle at a pulse that is no preamble (40_decoder.md R89). -/
theorem decStep_of_idle_of_no_preamble {p : Profile} {dec : Decoder} {l : Level} {d : Word}
    (hs : dec.step = .idle) (hpre : preambleMatch p l d = false) : decStep p dec l d = { dec := dec } := by
  rw [decStep_of_idle p l d hs, hpre, ← hs]
  rfl

/-- With every register 0, every element built has duration 0 (70_reset_and_hazards.md R137). -/
theorem duration_of_mem_build_zero {key : Key} {n : Nat} {e : Element} (he : e ∈ build Profile.zero key n) :
    e.duration = 0#32 := by
  have hcell : ∀ b, ∀ x ∈ bitCell Profile.zero b, x.duration = 0#32 := by decide
  rw [build, List.mem_cons, List.mem_cons] at he
  obtain rfl | rfl | he := he
  · rfl
  · rfl
  · obtain ⟨j, -, hj⟩ := List.mem_flatMap.mp he
    exact hcell _ e hj

/-- Settles O13: nothing matches a zero window, nothing is playing, and what ELOAD builds is `build` of the zero
profile. -/
theorem behaviourBeforeConfiguration : Obligations.BehaviourBeforeConfiguration := by
  rintro s ⟨hstep, -, -, hrun, -, -, -, -, hprof⟩
  refine ⟨fun l d => ?_, ?_, fun n key rep hfits => ?_⟩
  · have hpre : preambleMatch s.prof l d = false := by rw [hprof, preambleMatch_zero]
    exact exec_feed_of_unreported (decStep_of_idle_of_no_preamble hstep hpre)
  · obtain ⟨t, hexec, henc, -, -, -, -, hout⟩ := exec_eyield_of_idle (.inr hrun)
    have hkept : t.enc = s.enc := by rw [henc, ← hrun]
    obtain hout | hout := hout
    · exact ⟨t, _, hexec, hkept, hout, .inl rfl⟩
    · exact ⟨t, _, hexec, hkept, hout, .inr rfl⟩
  · refine ⟨_, exec_eload_of_fits key rep hfits, rfl, eloaded_len _ _ _ _ hfits, rfl, fun i hi => ?_⟩
    have hlt : i < (build s.prof key n).length := by rw [build_length]; exact hi
    have hzero : ∀ e ∈ build s.prof key n, e.duration = 0#32 := by
      rw [hprof]
      exact fun e => duration_of_mem_build_zero
    exact ⟨_, (eloaded_wave_built _ _ _ _ hi).trans (List.getElem?_eq_getElem hlt),
      hzero _ (List.getElem_mem hlt)⟩

end Sys2Proof.Machine

/-! PROOFS. The encoder and the decoder of command words are inverse to each other (30_encoding.md R68 to R70, R74). -/

namespace Sys2Proof

/-! ## Words that encode a command decode to it -/

/-- Every well-formed command's header meets its row of the opcode map (30_encoding.md R69, R70). -/
theorem encodeHeader_meets_row (i : Instr) : Laws.HeaderMeetsRow.Statement i :=
  match i with
  | .feed l d => Laws.HeaderMeetsRow.feed l d
  | .dreset => Laws.HeaderMeetsRow.dreset
  | .eload n key rep => Laws.HeaderMeetsRow.eload n key rep
  | .estop => Laws.HeaderMeetsRow.estop
  | .eyield => Laws.HeaderMeetsRow.eyield
  | .revb w v => Laws.HeaderMeetsRow.revb w v
  | .cfgwr a v => Laws.HeaderMeetsRow.cfgwr a v
  | .cfgrd a => Laws.HeaderMeetsRow.cfgrd a

/-- The operands of a well-formed command are read back from its words: each field of the header as it was built,
each 64-bit value from its two words. -/
theorem operands_encode {i : Instr} (hw : i.WellFormed) :
    operands (instrOpcode i) (encodeHeader i) (encodeArgs i) = some i := by
  cases i with
  | feed l d => simp only [operands, instrOpcode, encodeHeader, encodeArgs, hdrL_mkHeader]
  | dreset => rfl
  | eload n key rep =>
    have hn : n < 128 := of_decide_eq_true hw
    simp only [operands, instrOpcode, encodeHeader, encodeArgs, hdrN_mkHeader _ _ hn, joinWords_lo_hi]
  | estop => rfl
  | eyield => rfl
  | revb w v =>
    have hn : w < 128 := of_decide_eq_true hw
    simp only [operands, instrOpcode, encodeHeader, encodeArgs, hdrN_mkHeader _ _ hn, joinWords_lo_hi]
  | cfgwr a v => simp only [operands, instrOpcode, encodeHeader, encodeArgs, hdrA_mkHeader]
  | cfgrd a => simp only [operands, instrOpcode, encodeHeader, encodeArgs, hdrA_mkHeader]

theorem decode_encode {i : Instr} (hw : i.WellFormed) :
    decode (encodeHeader i) (encodeArgs i) = .instr i := by
  obtain ⟨hmask, -, -⟩ := encodeHeader_meets_row i hw
  exact (decode_eq_instr_iff_mask (operands_encode hw)).mpr hmask

/-- The port reads exactly the `k` words of a decoded command (30_encoding.md R71). -/
theorem argCount_of_decode {h : Word} {args : List Word} {i : Instr} (hd : decode h args = .instr i) :
    args.length = argCount h := by
  obtain ⟨o, hcode, -, hi⟩ := decode_eq_instr.mp hd
  rw [operands_length hi, argCount_of_opcode hcode]

/-- Settles O1: the port reads the `k` words of the command's opcode, and `decode_encode` gives the command. -/
theorem decodeOfEncodeIsTheCommand : Obligations.DecodeOfEncodeIsTheCommand := by
  intro i rest hw
  have hd := decode_encode hw
  exact ⟨encodeHeader i, encodeArgs i, rfl, Machine.fetch_command rest (argCount_of_decode hd), hd⟩

/-! ## Words that decode to a command encode it -/

/-- Words that agree on the `len` bits from `start` on agree under a mask within those bits. -/
theorem and_eq_of_field {x y m : Word} {start len : Nat}
    (hmask : ∀ j : Fin 32, m.getLsbD j = true → start ≤ j.val ∧ j.val < start + len)
    (h : ∀ j, j < len → x.getLsbD (start + j) = y.getLsbD (start + j)) : x &&& m = y &&& m := by
  apply BitVec.eq_of_getLsbD_eq
  intro j hj
  rw [BitVec.getLsbD_and, BitVec.getLsbD_and]
  cases hm : m.getLsbD j with
  | false => rw [Bool.and_false, Bool.and_false]
  | true =>
    obtain ⟨hlo, hhi⟩ : start ≤ j ∧ j < start + len := hmask ⟨j, hj⟩ hm
    obtain ⟨k, rfl⟩ := Nat.exists_eq_add_of_le hlo
    rw [h k (by omega)]

/-- A field's bits are those of the words that carry it. -/
theorem getLsbD_eq_of_extract {x y : Word} {start len : Nat}
    (h : x.extractLsb' start len = y.extractLsb' start len) :
    ∀ j, j < len → x.getLsbD (start + j) = y.getLsbD (start + j) := by
  intro j hj
  have hbit := congrArg (fun f => f.getLsbD j) h
  simpa [hj] using hbit

/-- The two parts of a word under a mask and outside it. -/
theorem and_or_and_not (x m : Word) : x &&& m ||| x &&& ~~~m = x := by
  apply BitVec.eq_of_getLsbD_eq
  intro j hj
  simp only [BitVec.getLsbD_or, BitVec.getLsbD_and, BitVec.getLsbD_not, hj, decide_true, Bool.true_and]
  rw [← Bool.and_or_distrib_left, Bool.or_not_self, Bool.and_true]

theorem and_level_mask_eq {x y : Word} (h : hdrL x = hdrL y) :
    x &&& ~~~opcodeMask .feed = y &&& ~~~opcodeMask .feed :=
  and_eq_of_field (start := 8) (len := 1) (by decide) fun j hj => by
    obtain rfl : j = 0 := by omega
    exact h

theorem and_count_mask_eq {x y : Word} (h : hdrN x = hdrN y) :
    x &&& ~~~opcodeMask .eload = y &&& ~~~opcodeMask .eload :=
  and_eq_of_field (start := 16) (len := 7) (by decide)
    (getLsbD_eq_of_extract (BitVec.eq_of_toNat_eq h))

theorem and_index_mask_eq {x y : Word} (h : hdrA x = hdrA y) :
    x &&& ~~~opcodeMask .cfgwr = y &&& ~~~opcodeMask .cfgwr :=
  and_eq_of_field (start := 24) (len := 8) (by decide) (getLsbD_eq_of_extract h)

theorem hdrN_lt (h : Word) : hdrN h < 128 := (h.extractLsb' 16 7).isLt

/-- Operands have the argument words and, outside the mask, the header they were assembled from, and they fit
their fields (30_encoding.md R68, R74). -/
theorem encode_of_operands {o : Opcode} {h : Word} {args : List Word} {i : Instr}
    (hi : operands o h args = some i) :
    i.WellFormed ∧ encodeArgs i = args ∧ encodeHeader i &&& ~~~opcodeMask o = h &&& ~~~opcodeMask o := by
  have hk := operands_length hi
  cases o with
  | feed =>
    obtain ⟨d, rfl⟩ := List.length_eq_one_iff.mp hk
    cases hi
    exact ⟨rfl, rfl, and_level_mask_eq (hdrL_mkHeader ..)⟩
  | dreset =>
    obtain rfl := List.length_eq_zero_iff.mp hk
    cases hi
    exact ⟨rfl, rfl, by simp [opcodeMask]⟩
  | eload =>
    obtain ⟨lo, hi', rep, rfl⟩ := List.length_eq_three.mp hk
    cases hi
    refine ⟨decide_eq_true (hdrN_lt h), ?_, and_count_mask_eq (hdrN_mkHeader _ _ (hdrN_lt h) _)⟩
    rw [encodeArgs, loWord_joinWords, hiWord_joinWords]
  | estop =>
    obtain rfl := List.length_eq_zero_iff.mp hk
    cases hi
    exact ⟨rfl, rfl, by simp [opcodeMask]⟩
  | eyield =>
    obtain rfl := List.length_eq_zero_iff.mp hk
    cases hi
    exact ⟨rfl, rfl, by simp [opcodeMask]⟩
  | revb =>
    obtain ⟨lo, hi', rfl⟩ := List.length_eq_two.mp hk
    cases hi
    refine ⟨decide_eq_true (hdrN_lt h), ?_, and_count_mask_eq (hdrN_mkHeader _ _ (hdrN_lt h) _)⟩
    rw [encodeArgs, loWord_joinWords, hiWord_joinWords]
  | cfgwr =>
    obtain ⟨v, rfl⟩ := List.length_eq_one_iff.mp hk
    cases hi
    exact ⟨rfl, rfl, and_index_mask_eq (hdrA_mkHeader ..)⟩
  | cfgrd =>
    obtain rfl := List.length_eq_zero_iff.mp hk
    cases hi
    exact ⟨rfl, rfl, and_index_mask_eq (hdrA_mkHeader ..)⟩

/-- Settles O2: under its opcode's mask the header has the row's match word, as the encoded header has, and outside
the mask the operands are the header's own fields. -/
theorem encodeOfDecodeIsTheWords : Obligations.EncodeOfDecodeIsTheWords := by
  intro h args i hd
  obtain ⟨o, -, hmask, hi⟩ := decode_eq_instr.mp hd
  obtain ⟨hw, hargs, hfields⟩ := encode_of_operands hi
  obtain ⟨hrow, -, -⟩ := encodeHeader_meets_row i hw
  rw [operands_opcode hi, ← hmask] at hrow
  have hheader : encodeHeader i = h :=
    calc encodeHeader i
        = encodeHeader i &&& opcodeMask o ||| encodeHeader i &&& ~~~opcodeMask o :=
          (and_or_and_not _ _).symm
      _ = h &&& opcodeMask o ||| h &&& ~~~opcodeMask o := by rw [hrow, hfields]
      _ = h := and_or_and_not _ _
  exact ⟨hw, by rw [encode, hheader, hargs]⟩

/-! ## Written-out words -/

/-- Settles O4: each word list of 95_test_vectors.md is decoded as it stands. -/
theorem writtenOutWordsDecode : Obligations.WrittenOutWordsDecode := by
  unfold Obligations.WrittenOutWordsDecode
  decide

end Sys2Proof

/-! PROOFS. What the port gives each step: a whole command, a command that is none, a partial command, or the reset
input (20_memory.md R59, R62; 30_encoding.md R70, R71; 60_exceptions.md R120, R121; 70_reset_and_hazards.md R133). -/

namespace Sys2Proof

/-- The cause of 60_exceptions.md R120 for an `OPC` that is not assigned. -/
theorem decode_of_unknown {h : Word} (args : List Word) (hopc : ∀ o, opcodeCode o ≠ hdrOpc h) :
    decode h args = .illegal .unknownOpcode := by
  rw [decode, opcodeOf_eq_none.mpr hopc]

/-- The cause of 60_exceptions.md R120 for an assigned `OPC` with a masked bit wrong. -/
theorem decode_of_malformed {h : Word} {o : Opcode} (args : List Word) (hopc : opcodeCode o = hdrOpc h)
    (hmask : h &&& opcodeMask o ≠ opcodeMatch o) : decode h args = .illegal .malformedHeader := by
  simp only [decode, opcodeOf_eq_some.mpr hopc, if_neg hmask]

end Sys2Proof

namespace Sys2Proof.Machine

/-! ## A whole command -/

/-- A decoded command first at the port is executed, its words taken. -/
theorem step_of_fetch_instr {s : State} {h : Word} {args : List Word} {rest : List Input} {i : Instr}
    (hfetch : fetch s.input = .command h args rest) (hd : decode h args = .instr i) :
    step s = exec i (setInput rest s) := by
  simp only [step, hfetch, runCommand, hd]

/-- Words that are no command are answered ILLEGAL, and nothing else changes (60_exceptions.md R121). -/
theorem step_of_fetch_illegal {s : State} {h : Word} {args : List Word} {rest : List Input} {e : DecodeError}
    (hfetch : fetch s.input = .command h args rest) (hd : decode h args = .illegal e) :
    step s = .next (raiseIllegal (hdrOpc h) (setInput rest s)) := by
  simp only [step, hfetch, runCommand, hd]

/-- Settles O5: a decoded command has the `k` words its opcode takes, so the port gives it whole. -/
theorem stepRunsTheDecodedCommand : Obligations.StepRunsTheDecodedCommand := by
  intro s h args rest i hin hd
  have hfetch : fetch s.input = .command h args rest := by
    rw [hin, fetch_command rest (argCount_of_decode hd)]
  exact step_of_fetch_instr hfetch hd

/-- `step_of_fetch_illegal` in response words, for the `k` words of the header at the port. -/
theorem step_of_illegal {s : State} {h : Word} {args : List Word} {rest : List Input} {e : DecodeError}
    (hin : s.input = (h :: args).map Input.word ++ rest) (hk : args.length = argCount h)
    (hd : decode h args = .illegal e) :
    step s = .next { s with input := rest, output := s.output ++ [hdrOpc h ++ 0#20 ++ 2#4] } := by
  have hfetch : fetch s.input = .command h args rest := by rw [hin, fetch_command rest hk]
  rw [step_of_fetch_illegal hfetch hd, raiseIllegal, respond, illegalWords]
  rfl

/-- Settles O6: an unknown opcode takes no argument word and a malformed header those of its opcode, so either is
first at the port whole, and neither decodes. -/
theorem undecodableCommandIsIllegal : Obligations.UndecodableCommandIsIllegal := by
  rintro s h args rest hin (⟨hopc, rfl⟩ | ⟨o, hopc, hk, hmask⟩)
  · exact step_of_illegal hin (argCount_of_unknown hopc).symm (decode_of_unknown [] hopc)
  · exact step_of_illegal hin (hk.trans (argCount_of_opcode hopc).symm) (decode_of_malformed args hopc hmask)

/-! ## A partial command -/

/-- With nothing for it to take, the step is idle (20_memory.md R59; log 7). -/
theorem step_of_wait {s : State} (h : fetch s.input = .wait) : step s = .next s := by
  rw [step, h]

/-- Settles O7: in both cases the port has nothing whole to give. -/
theorem partialCommandWaits : Obligations.PartialCommandWaits := by
  rintro s (hin | ⟨h, args, hin, hk⟩)
  · exact step_of_wait (by rw [hin, fetch])
  · exact step_of_wait (by rw [hin, List.map_cons, fetch, takeArgs_short h args _ _ hk])

/-! ## The reset input -/

/-- A reset before the last word of a command, or with no command begun, is what the port gives. -/
theorem fetch_of_reset {lost ignored : List Word} {rest : List Input}
    (h : ∀ w args, lost = w :: args → args.length < argCount w) :
    fetch (lost.map Input.word ++ Input.reset ignored :: rest) = .reset rest := by
  cases lost with
  | nil => rfl
  | cons w args =>
    rw [List.map_cons, List.cons_append, fetch, takeArgs_reset w args ignored rest _ _ (h w args rfl)]

/-- Settles O9: the port gives the reset, and `applyReset` leaves what 70_reset_and_hazards.md R134 to R136 say. -/
theorem resetInputResetsTheBlock : Obligations.ResetInputResetsTheBlock := by
  intro s lost ignored rest hin hlost
  have hfetch : fetch s.input = .reset rest := by rw [hin, fetch_of_reset hlost]
  exact ⟨_, step_of_reset hfetch, applyReset_afterReset _, rfl, rfl, rfl⟩

/-! ## A sequence of commands -/

theorem step_of_encode {i : Instr} (hw : i.WellFormed) (s : State) (rest : List Input) :
    step (setInput ((encode i).map Input.word ++ rest) s) = exec i (setInput rest s) :=
  stepRunsTheDecodedCommand _ _ _ _ _ rfl (decode_encode hw)

theorem stepN_succ {s t : State} (h : step s = .next t) (n : Nat) : stepN (n + 1) s = stepN n t := by
  rw [stepN, h]

/-- Settles O8, by induction on the commands: no command reads or writes what waits behind it
(`exec_setInput`), so each step leaves the port with the words of the commands after it. -/
theorem commandsRunInOrder : Obligations.CommandsRunInOrder := by
  intro is
  induction is with
  | nil =>
    intro s t _ hexec
    exact hexec
  | cons i is ih =>
    intro s t hw hexec
    obtain ⟨hi, his⟩ := List.forall_mem_cons.mp hw
    cases hfirst : exec i s with
    | next s' =>
      rw [execAll_cons hfirst] at hexec
      obtain ⟨hport, hinput⟩ := exec_setInput ((is.flatMap encode).map Input.word ++ s.input) hfirst
      have hstep := (step_of_encode hi s ((is.flatMap encode).map Input.word ++ s.input)).trans hport
      rw [← List.append_assoc, ← List.map_append, ← List.flatMap_cons] at hstep
      rw [List.length_cons, ← ih s' t his hexec, hinput]
      exact stepN_succ hstep is.length
    | fault _ => simp [execAll, hfirst] at hexec
    | refused _ => simp [execAll, hfirst] at hexec

end Sys2Proof.Machine

/-! PROOFS. Everything an execution can do to the state, said once, and what each command leaves unchanged
(40_decoder.md R96, R97; 41_encoder.md R104 to R107; 42_bit_reversal.md R112; 43_register_access.md R115, R116). -/

namespace Sys2Proof.Machine

/-! ## Everything an execution can do -/

/-- `Executed s i t`: the command `i` takes the state `s` to `t`, with the conditions under which it does so. -/
inductive Executed (s : State) : Instr → State → Prop
  | feed (l : Level) (d : Word) :
    Executed s (.feed l d)
      (respond (feedResponse (decStep s.prof s.dec l d).emit (decStep s.prof s.dec l d).bit)
        (setDec (decStep s.prof s.dec l d).dec s))
  | dreset :
    Executed s .dreset
      (respond { status := .ok, echo := 0x02#8 }
        (addDraws 1
          (setDec { step := .idle, acc := 0#64, count := 0#7, pending := Config.freeWord s.draws } s)))
  | eload {n : Nat} (key : Key) (rep : Word) (hfits : 2 * n + 2 ≤ s.cap.toNat) :
    Executed s (.eload n key rep)
      (respond { status := .ok, echo := 0x10#8 } (setEnc (eloaded s.prof n key rep s.enc) s))
  | eloadFailed {n : Nat} (key : Key) (rep : Word) (hfits : s.cap.toNat < 2 * n + 2) :
    Executed s (.eload n key rep) (respond { status := .fail, echo := 0x10#8 } (setRunning false s))
  | estop : Executed s .estop (respond { status := .ok, echo := 0x11#8 } (setRunning false s))
  | eyieldIdle (hidle : s.enc.repeats = 0#32 ∨ s.enc.running = false) :
    Executed s .eyield
      (respond
        { status := .ok, f0 := false, f1 := Config.freeLevel s.draws, echo := 0x12#8, data := [0#32] }
        (addDraws 1 (setRunning false s)))
  | eyieldElement {e : Element} (hrep : s.enc.repeats ≠ 0#32) (hrun : s.enc.running = true)
      (helem : waveRead s.enc.wave s.enc.cursor = some e) :
    Executed s .eyield
      (respond { status := .ok, f0 := true, f1 := e.level, echo := 0x12#8, data := [e.duration] }
        (setEnc (advance s.enc) s))
  | revb {w : Nat} (v : Key) (hw : w ≤ 64) :
    Executed s (.revb w v)
      (respond
        { status := .ok, echo := 0x20#8, data := [loWord (reverseBits v w), hiWord (reverseBits v w)] } s)
  | revbRefused {w : Nat} (v : Key) (hw : 64 < w) : Executed s (.revb w v) (raiseIllegal 0x20#8 s)
  | cfgwr (r : ProfileReg) (v : Word) :
    Executed s (.cfgwr (cfgIndex (.profile r)) v)
      (respond { status := .ok, echo := 0x30#8 } (setProf (profSet s.prof r (v &&& wmask r)) s))
  | cfgwrRefused {a : BitVec 8} (v : Word) (ha : ∀ r, cfgRegAt a ≠ some (.profile r)) :
    Executed s (.cfgwr a v) (raiseIllegal 0x30#8 s)
  | cfgrd (r : CfgReg) :
    Executed s (.cfgrd (cfgIndex r))
      (respond
        { status := .ok, echo := 0x31#8, data := [cfgRead s (Config.freeWord s.draws) r] }
        (addDraws (cfgDraws s r) s))
  | cfgrdRefused {a : BitVec 8} (ha : cfgRegAt a = none) : Executed s (.cfgrd a) (raiseIllegal 0x31#8 s)

theorem Executed.exec_eq {s t : State} {i : Instr} (h : Executed s i t) : exec i s = .next t := by
  cases h with
  | feed l d => rfl
  | dreset => rfl
  | eload key rep hfits => exact execEload_of_fits key rep hfits
  | eloadFailed key rep hfits => exact execEload_of_not_fits key rep hfits
  | estop => rfl
  | eyieldIdle hidle => exact execEyield_of_idle hidle
  | eyieldElement hrep hrun helem => exact execEyield_of_element hrep hrun helem
  | revb v hw => exact execRevb_of_le v s hw
  | revbRefused v hw => exact execRevb_of_gt v s hw
  | cfgwr r v => exact execCfgwr_of_profile r v s
  | cfgwrRefused v ha => exact execCfgwr_of_not_profile v s ha
  | cfgrd r => exact execCfgrd_of_assigned r s
  | cfgrdRefused ha => exact execCfgrd_of_unassigned s ha

/-- Every command executes in every state, but for an EYIELD of an element outside `WAVE` (log 8). -/
theorem exists_executed (i : Instr) (s : State) :
    (∃ t, Executed s i t) ∨
      i = .eyield ∧ s.enc.repeats ≠ 0#32 ∧ s.enc.running = true ∧
        waveRead s.enc.wave s.enc.cursor = none := by
  cases i with
  | feed l d => exact .inl ⟨_, .feed l d⟩
  | dreset => exact .inl ⟨_, .dreset⟩
  | eload n key rep =>
    obtain hfits | hfits := Nat.lt_or_ge s.cap.toNat (2 * n + 2)
    · exact .inl ⟨_, .eloadFailed key rep hfits⟩
    · exact .inl ⟨_, .eload key rep hfits⟩
  | estop => exact .inl ⟨_, .estop⟩
  | eyield =>
    by_cases hidle : s.enc.repeats = 0#32 ∨ s.enc.running = false
    · exact .inl ⟨_, .eyieldIdle hidle⟩
    · rw [not_or, Bool.not_eq_false] at hidle
      obtain ⟨hrep, hrun⟩ := hidle
      cases helem : waveRead s.enc.wave s.enc.cursor with
      | none => exact .inr ⟨rfl, hrep, hrun, rfl⟩
      | some e => exact .inl ⟨_, .eyieldElement hrep hrun helem⟩
  | revb w v =>
    obtain hw | hw := Nat.lt_or_ge 64 w
    · exact .inl ⟨_, .revbRefused v hw⟩
    · exact .inl ⟨_, .revb v hw⟩
  | cfgwr a v =>
    by_cases hprofile : ∃ r, cfgRegAt a = some (.profile r)
    · obtain ⟨r, hr⟩ := hprofile
      obtain rfl := cfgRegAt_eq_some.mp hr
      exact .inl ⟨_, .cfgwr r v⟩
    · exact .inl ⟨_, .cfgwrRefused v (not_exists.mp hprofile)⟩
  | cfgrd a =>
    cases hreg : cfgRegAt a with
    | none => exact .inl ⟨_, .cfgrdRefused hreg⟩
    | some r =>
      obtain rfl := cfgRegAt_eq_some.mp hreg
      exact .inl ⟨_, .cfgrd r⟩

theorem exec_eq_next_iff {i : Instr} {s t : State} : exec i s = .next t ↔ Executed s i t := by
  constructor
  · intro h
    obtain ⟨t', ht'⟩ | ⟨rfl, hrep, hrun, helem⟩ := exists_executed i s
    · rw [ht'.exec_eq] at h
      cases h
      exact ht'
    · rw [exec, execEyield_of_outside hrep hrun helem] at h
      cases h
  · exact Executed.exec_eq

/-! ## What an execution makes of each part of the state -/

theorem Executed.cap {s t : State} {i : Instr} (h : Executed s i t) : t.cap = s.cap := by
  cases h <;> rfl

theorem Executed.dec {s t : State} {i : Instr} (h : Executed s i t) :
    t.dec = s.dec ∨
    (i = .dreset ∧ t.dec = { step := .idle, acc := 0#64, count := 0#7, pending := Config.freeWord s.draws }) ∨
    ∃ l d, i = .feed l d ∧ t.dec = (decStep s.prof s.dec l d).dec := by
  cases h with
  | feed l d => exact .inr (.inr ⟨l, d, rfl, rfl⟩)
  | dreset => exact .inr (.inl ⟨rfl, rfl⟩)
  | _ => exact .inl rfl

theorem Executed.prof {s t : State} {i : Instr} (h : Executed s i t) :
    t.prof = s.prof ∨
    ∃ r v, i = .cfgwr (cfgIndex (.profile r)) v ∧ t.prof = profSet s.prof r (v &&& wmask r) := by
  cases h with
  | cfgwr r v => exact .inr ⟨r, v, rfl, rfl⟩
  | _ => exact .inl rfl

theorem Executed.enc {s t : State} {i : Instr} (h : Executed s i t) :
    t.enc = s.enc ∨ t.enc = { s.enc with running := false } ∨
    (s.enc.running = true ∧ t.enc = advance s.enc) ∨
    ∃ n key rep, i = .eload n key rep ∧ 2 * n + 2 ≤ s.cap.toNat ∧
      t.enc = eloaded s.prof n key rep s.enc := by
  cases h with
  | eload key rep hfits => exact .inr (.inr (.inr ⟨_, key, rep, rfl, hfits, rfl⟩))
  | eloadFailed key rep hfits => exact .inr (.inl rfl)
  | estop => exact .inr (.inl rfl)
  | eyieldIdle hidle => exact .inr (.inl rfl)
  | eyieldElement hrep hrun helem => exact .inr (.inr (.inl ⟨hrun, rfl⟩))
  | _ => exact .inl rfl

/-! ## Frames -/

/-- The cursor and the repeats are all that delivering an element moves (41_encoder.md R106). -/
theorem advance_wave (e : Encoder) : (advance e).wave = e.wave := by
  rw [advance]
  split <;> rfl

theorem advance_len (e : Encoder) : (advance e).len = e.len := by
  rw [advance]
  split <;> rfl

/-- Settles O21: FEED and DRESET write the decoder and answer. -/
theorem decoderCommandsFrame : Obligations.DecoderCommandsFrame := by
  rintro i s t (rfl | ⟨l, d, rfl⟩) h
  · cases exec_eq_next_iff.mp h
    exact ⟨rfl, rfl, rfl, rfl⟩
  · cases exec_eq_next_iff.mp h
    exact ⟨rfl, rfl, rfl, rfl⟩

/-- Settles O22: each of the three commands writes the encoder alone, and of the buffer only ELOAD the elements
below `2N+2`, when they fit. -/
theorem encoderCommandsFrame : Obligations.EncoderCommandsFrame := by
  rintro i s t (rfl | rfl | ⟨n, key, rep, rfl⟩) h
  · cases exec_eq_next_iff.mp h
    exact ⟨rfl, rfl, rfl, rfl, fun _ => ⟨rfl, rfl⟩, fun _ => ⟨rfl, rfl, rfl⟩, nofun⟩
  · cases exec_eq_next_iff.mp h with
    | eyieldIdle hidle => exact ⟨rfl, rfl, rfl, rfl, fun _ => ⟨rfl, rfl⟩, nofun, nofun⟩
    | eyieldElement hrep hrun helem =>
      exact ⟨rfl, rfl, rfl, rfl, fun _ => ⟨advance_wave s.enc, advance_len s.enc⟩, nofun, nofun⟩
  · cases exec_eq_next_iff.mp h with
    | eload key rep hfits =>
      refine ⟨rfl, rfl, rfl, rfl, by simp, nofun, ?_⟩
      rintro _ _ _ ⟨⟩ k (hk | hfails)
      · exact eloaded_wave_kept s.prof key rep s.enc hk
      · omega
    | eloadFailed key rep hfits =>
      exact ⟨rfl, rfl, rfl, rfl, by simp, nofun, fun _ _ _ _ _ _ => rfl⟩

/-- Settles O23: a refused command only answers, and CFGWR sets one register of the profile. -/
theorem registerCommandsFrame : Obligations.RegisterCommandsFrame := by
  rintro i s t (⟨w, v, rfl⟩ | ⟨a, rfl⟩ | ⟨a, v, rfl⟩) h
  · cases exec_eq_next_iff.mp h with
    | revb v hw => exact ⟨rfl, rfl, rfl, rfl, fun _ => rfl, nofun⟩
    | revbRefused v hw => exact ⟨rfl, rfl, rfl, rfl, fun _ => rfl, nofun⟩
  · cases exec_eq_next_iff.mp h with
    | cfgrd r => exact ⟨rfl, rfl, rfl, rfl, fun _ => rfl, nofun⟩
    | cfgrdRefused ha => exact ⟨rfl, rfl, rfl, rfl, fun _ => rfl, nofun⟩
  · cases exec_eq_next_iff.mp h with
    | cfgwr r v =>
      refine ⟨rfl, rfl, rfl, rfl, by simp, ?_⟩
      rintro _ _ ⟨⟩ q hq
      exact profGet_profSet_ne s.prof _ fun hqr => hq (by rw [hqr])
    | cfgwrRefused v ha => exact ⟨rfl, rfl, rfl, rfl, fun _ => rfl, fun _ _ _ _ _ => rfl⟩

/-! ## Who changes what -/

/-- Settles O16: no part of `step_cases` writes the capacity, and an execution puts its one response behind those
answered (`exec_answers`). -/
theorem stepKeepsCapacityAndPastResponses : Obligations.StepKeepsCapacityAndPastResponses := by
  intro s t h
  obtain ⟨-, rfl⟩ | ⟨rest, -, rfl⟩ | ⟨_, _, rest, i, -, -, hexec⟩ | ⟨_, _, rest, _, -, -, rfl⟩ :=
    step_cases h
  · exact ⟨rfl, [], (List.append_nil _).symm⟩
  · exact ⟨rfl, [], (List.append_nil _).symm⟩
  · obtain ⟨r, hout, -⟩ := exec_answers hexec
    exact ⟨(exec_eq_next_iff.mp hexec).cap, responseWords r, hout⟩
  · exact ⟨rfl, _, rfl⟩

/-- Settles O18: of what `Executed.enc` lists, only a load that fits writes the buffer or sets `ENC.RUNNING`. -/
theorem onlyEloadWritesWaveOrSetsRunning : Obligations.OnlyEloadWritesWaveOrSetsRunning := by
  intro s t h hchange
  obtain ⟨-, rfl⟩ | ⟨rest, hfetch, -⟩ | ⟨w, args, rest, i, hfetch, hd, hexec⟩ | ⟨_, _, rest, _, -, -, rfl⟩ :=
    step_cases h
  · simp at hchange
  · exact .inl ⟨rest, hfetch⟩
  · obtain henc | henc | ⟨hrun, henc⟩ | ⟨n, key, rep, rfl, hfits, -⟩ := (exec_eq_next_iff.mp hexec).enc
    · simp [henc] at hchange
    · simp [henc] at hchange
    · have hrun : s.enc.running = true := hrun
      simp [henc, advance_wave, hrun] at hchange
    · exact .inr ⟨w, args, rest, n, key, rep, hfetch, hd, hfits⟩
  · simp at hchange

/-- Settles O19: an execution changes the decoder or the profile only as `Executed.dec` and `Executed.prof` list. -/
theorem whoChangesDecoderAndProfile : Obligations.WhoChangesDecoderAndProfile := by
  intro s t h
  obtain ⟨-, rfl⟩ | ⟨rest, hfetch, -⟩ | ⟨w, args, rest, i, hfetch, hd, hexec⟩ | ⟨_, _, rest, _, -, -, rfl⟩ :=
    step_cases h
  · exact ⟨fun hne => absurd rfl hne, fun hne => absurd rfl hne⟩
  · exact ⟨fun _ => .inl ⟨rest, hfetch⟩, fun _ => .inl ⟨rest, hfetch⟩⟩
  · have hexecuted := exec_eq_next_iff.mp hexec
    constructor
    · intro hne
      obtain hdec | ⟨rfl, -⟩ | ⟨l, d, rfl, -⟩ := hexecuted.dec
      · exact absurd hdec hne
      · exact .inr ⟨w, args, rest, hfetch, .inl hd⟩
      · exact .inr ⟨w, args, rest, hfetch, .inr ⟨l, d, hd⟩⟩
    · intro hne
      obtain hprof | ⟨r, v, rfl, -⟩ := hexecuted.prof
      · exact absurd hprof hne
      · exact .inr ⟨w, args, rest, _, v, hfetch, hd, cfgIndex_profile_le r⟩
  · exact ⟨fun hne => absurd rfl hne, fun hne => absurd rfl hne⟩

end Sys2Proof.Machine

/-! PROOFS. The invariant of the block holds after reset, every step keeps it, and it rules out every stop
(10_state.md R20, R22 to R28; 43_register_access.md R118; 60_exceptions.md R119, R126). -/

namespace Sys2Proof.Machine

/-! ## After reset -/

/-- The registers one by one (43_register_access.md R118). -/
theorem profileInv_iff {p : Profile} : ProfileInv p ↔ ∀ r, profGet p r &&& ~~~wmask r = 0#32 := by
  rw [ProfileInv, List.all_eq_true]
  constructor
  · intro h r
    exact eq_of_beq (h r (by cases r <;> decide))
  · intro h r _
    exact beq_iff_eq.mpr (h r)

theorem profileInv_zero : ProfileInv Profile.zero := by
  rw [profileInv_iff]
  intro r
  rw [profGet_zero, BitVec.zero_and]

/-- A state as after reset meets the invariant, whatever its unspecified values. -/
theorem State.AfterReset.inv {s : State} (h : s.AfterReset) (hcap : CapLegal s.cap) : s.Inv := by
  obtain ⟨hstep, hacc, hcount, hrun, hlen, -, -, hwave, hprof⟩ := h
  refine ⟨hcap, ⟨?_, fun _ => ⟨hacc, hcount⟩, ?_⟩, ⟨hwave, ?_, ?_, ?_⟩, ?_⟩
  · simp [hcount]
  · simp [hstep]
  · simp [hlen]
  · simp [hlen]
  · simp [hrun]
  · rw [hprof]
    exact profileInv_zero

/-- Settles O10: `resetWith` has the reset values, which meet the invariant. -/
theorem powerOnStateIsAfterReset : Obligations.PowerOnStateIsAfterReset :=
  fun cap => ⟨resetWith_afterReset cap, rfl, (resetWith_afterReset cap).inv⟩

/-- Settles O11: `State.reset` is the power-on state of capacity 50, which is legal. -/
theorem resetMeetsTheInvariant : Obligations.ResetMeetsTheInvariant := by
  obtain ⟨hreset, hcap, hinv⟩ := powerOnStateIsAfterReset Config.refCap
  exact ⟨hinv (by decide), hreset, hcap, rfl, rfl⟩

/-! ## The decoder -/

/-- A decoder outside a frame with nothing gathered (10_state.md R22). -/
theorem decoderInv_of_no_frame {d : Decoder} (hstep : d.step = .idle ∨ d.step = .foundPreamble)
    (hacc : d.acc = 0#64) (hcount : d.count = 0#7) : DecoderInv d := by
  refine ⟨by simp [hcount], fun _ => ⟨hacc, hcount⟩, fun hframe => ?_⟩
  obtain hs | hs := hstep <;> simp [hs] at hframe

/-- A decoder in a frame (10_state.md R20, R22). -/
theorem decoderInv_of_frame {d : Decoder} (hstep : d.step = .awaitingBitHalf ∨ d.step = .classifyingBitHalf)
    (hcount : d.count.toNat ≤ 64) (hacc : d.acc.toNat < 2 ^ d.count.toNat) : DecoderInv d := by
  refine ⟨hcount, fun hout => ?_, fun _ => hacc⟩
  obtain hs | hs := hstep <;> simp [hs] at hout

/-- One more bit keeps the accumulator below `2^COUNT`: neither the product nor the count overflows. -/
theorem appendBit_inv {d : Decoder} (b : Bool) (hcount : d.count.toNat < 64)
    (hacc : d.acc.toNat < 2 ^ d.count.toNat) : DecoderInv (appendBit d b).dec := by
  have hb : b.toNat ≤ 1 := Bool.toNat_le b
  have hnext : d.acc.toNat * 2 + b.toNat < 2 ^ (d.count.toNat + 1) := by
    rw [pow_succ]
    omega
  have hfits : 2 ^ (d.count.toNat + 1) ≤ 2 ^ 64 := Nat.pow_le_pow_right (by decide) hcount
  have hcount' : (BitVec.ofNat 7 (d.count.toNat + 1)).toNat = d.count.toNat + 1 :=
    toNat_ofNat_count hcount
  rw [appendBit_of_lt b hcount]
  apply decoderInv_of_frame (.inl rfl)
  · rw [hcount']
    exact hcount
  · rw [hcount', BitVec.toNat_ofNat, Nat.mod_eq_of_lt (Nat.lt_of_lt_of_le hnext hfits)]
    exact hnext

theorem decStep_inv {d : Decoder} (h : DecoderInv d) (p : Profile) (l : Level) (x : Word) :
    DecoderInv (decStep p d l x).dec := by
  obtain ⟨hcount, hout, hframe⟩ := h
  obtain ⟨hs, hd⟩ | ⟨hs, hd⟩ | ⟨hs, hd⟩ | ⟨hs, hd⟩ | ⟨hs, -, hd⟩ | ⟨hs, -, hd⟩ | ⟨hs, hlt, b, -, hd⟩ |
    ⟨-, hd⟩ := decStep_cases p d l x <;> rw [hd]
  · exact ⟨hcount, hout, hframe⟩
  · obtain ⟨hacc, hzero⟩ := hout (.inl hs)
    exact decoderInv_of_no_frame (.inr rfl) hacc hzero
  · exact decoderInv_of_frame (.inl rfl) (by simp) (by simp)
  · obtain ⟨hacc, hzero⟩ := hout (.inr hs)
    exact decoderInv_of_no_frame (.inl rfl) hacc hzero
  · exact decoderInv_of_no_frame (.inr rfl) rfl rfl
  · exact decoderInv_of_frame (.inr rfl) hcount (hframe (.inl hs))
  · exact appendBit_inv b hlt (hframe (.inr hs))
  · exact decoderInv_of_no_frame (.inl rfl) rfl rfl

theorem Executed.decoderInv {s t : State} {i : Instr} (h : Executed s i t) (hinv : DecoderInv s.dec) :
    DecoderInv t.dec := by
  obtain hdec | ⟨-, hdec⟩ | ⟨l, d, -, hdec⟩ := h.dec <;> rw [hdec]
  · exact hinv
  · exact decoderInv_of_no_frame (.inl rfl) rfl rfl
  · exact decStep_inv hinv s.prof l d

/-! ## The encoder -/

/-- A load that fits fills the front of the buffer and plays at least two elements (41_encoder.md R100, R104). -/
theorem eloaded_inv {cap : BitVec 8} {e : Encoder} {n : Nat} (h : EncoderInv cap e) (p : Profile) (key : Key)
    (rep : Word) (hfits : 2 * n + 2 ≤ cap.toNat) : EncoderInv cap (eloaded p n key rep e) := by
  obtain ⟨hwave, -⟩ := h
  have hlen := eloaded_len p key rep e hfits
  have hbuild : (build p key n).length ≤ e.wave.length := by
    rw [build_length, hwave]
    exact hfits
  exact ⟨(waveLoad_length hbuild).trans hwave, by omega, fun hpos => hpos, by omega⟩

/-- The cursor stays below `ENC.LEN`: after the last element it is back at 0 (10_state.md R25). -/
theorem advance_inv {cap : BitVec 8} {e : Encoder} (h : EncoderInv cap e) (hrun : e.running = true) :
    EncoderInv cap (advance e) := by
  obtain ⟨hwave, hlen, hcursor, hplay⟩ := h
  have hpos : 2 ≤ e.len.toNat := hplay hrun
  have hlt := hcursor (by omega)
  rw [advance]
  split
  · exact ⟨hwave, hlen, fun hpos => hpos, hplay⟩
  · refine ⟨hwave, hlen, fun _ => ?_, hplay⟩
    show (e.cursor + 1#8).toNat < e.len.toNat
    bv_omega

theorem Executed.encoderInv {s t : State} {i : Instr} (h : Executed s i t) (hinv : EncoderInv s.cap s.enc) :
    EncoderInv s.cap t.enc := by
  obtain henc | henc | ⟨hrun, henc⟩ | ⟨n, key, rep, -, hfits, henc⟩ := h.enc <;> rw [henc]
  · exact hinv
  · obtain ⟨hwave, hlen, hcursor, -⟩ := hinv
    exact ⟨hwave, hlen, hcursor, nofun⟩
  · exact advance_inv hinv hrun
  · exact eloaded_inv hinv s.prof key rep hfits

/-! ## The profile -/

/-- A masked value has no reserved bit (43_register_access.md R118). -/
theorem profSet_inv {p : Profile} (h : ProfileInv p) (r : ProfileReg) (v : Word) :
    ProfileInv (profSet p r (v &&& wmask r)) := by
  rw [profileInv_iff] at h ⊢
  intro q
  by_cases hq : q = r
  · rw [hq, profGet_profSet_same, BitVec.and_assoc, BitVec.and_not_self]
    exact BitVec.and_zero
  · rw [profGet_profSet_ne p _ hq]
    exact h q

theorem Executed.profileInv {s t : State} {i : Instr} (h : Executed s i t) (hinv : ProfileInv s.prof) :
    ProfileInv t.prof := by
  obtain hprof | ⟨r, v, -, hprof⟩ := h.prof <;> rw [hprof]
  · exact hinv
  · exact profSet_inv hinv r v

/-! ## The obligations -/

theorem Executed.inv {s t : State} {i : Instr} (h : Executed s i t) (hinv : s.Inv) : t.Inv := by
  obtain ⟨hcap, hdec, henc, hprof⟩ := hinv
  rw [State.Inv, h.cap]
  exact ⟨hcap, h.decoderInv hdec, h.encoderInv henc, h.profileInv hprof⟩

/-- Settles O14: a step waits, resets, executes a command or answers ILLEGAL; the first and the last leave all that
the invariant reads, and the others have `State.AfterReset.inv` and `Executed.inv`. -/
theorem everyStepKeepsTheInvariant : Obligations.EveryStepKeepsTheInvariant := by
  intro s t hinv h
  obtain ⟨-, rfl⟩ | ⟨rest, -, rfl⟩ | ⟨_, _, rest, i, -, -, hexec⟩ | ⟨_, _, rest, _, -, -, rfl⟩ :=
    step_cases h
  · exact hinv
  · obtain ⟨hcap, -⟩ := hinv
    exact (applyReset_afterReset _).inv hcap
  · exact (exec_eq_next_iff.mp hexec).inv (s := setInput rest s) hinv
  · exact hinv

/-- A playing encoder's cursor is inside the buffer, so no command stops (20_memory.md R53). -/
theorem exec_goes {s : State} (hinv : s.Inv) (i : Instr) : ∃ t, exec i s = .next t := by
  obtain ⟨t, ht⟩ | ⟨-, -, hrun, houtside⟩ := exists_executed i s
  · exact ⟨t, ht.exec_eq⟩
  · obtain ⟨-, -, ⟨hwave, hlen, hcursor, hplay⟩, -⟩ := hinv
    have hpos := hplay hrun
    have hlt := hcursor (by omega)
    have hge : s.enc.wave.length ≤ s.enc.cursor.toNat := List.getElem?_eq_none_iff.mp houtside
    omega

/-- Settles O15: what the port gives is nothing, a reset, words that are no command, or a command of `exec_goes`. -/
theorem noStepStops : Obligations.NoStepStops := by
  intro s hinv
  cases hfetch : fetch s.input with
  | wait => exact ⟨_, step_of_wait hfetch⟩
  | reset rest => exact ⟨_, step_of_reset hfetch⟩
  | command h args rest =>
    cases hd : decode h args with
    | instr i =>
      obtain ⟨t, hexec⟩ := exec_goes (s := setInput rest s) hinv i
      exact ⟨t, (step_of_fetch_instr hfetch hd).trans hexec⟩
    | illegal e => exact ⟨_, step_of_fetch_illegal hfetch hd⟩

end Sys2Proof.Machine

/-! PROOFS. What a command does not depend on: FEED on the encoder, EYIELD on the decoder and the profile, and no step
on what the spec leaves unspecified (10_state.md R21, R24; 40_decoder.md R88; 41_encoder.md R106;
70_reset_and_hazards.md R135). -/

namespace Sys2Proof.Machine

/-! ## One command -/

/-- Settles O31: `exec_feed` reads the decoder and the profile alone. -/
theorem feedDependsOnDecoderAndProfileOnly : Obligations.FeedDependsOnDecoderAndProfileOnly := by
  intro s₁ s₂ l d hdec hprof
  refine ⟨_, _, _, exec_feed s₁ l d, exec_feed s₂ l d, ?_, rfl, ?_⟩
  · simp only [hdec, hprof]
  · simp only [hdec, hprof]

/-- Settles O36: no element stands at or beyond the end of the buffer. -/
theorem eyieldOutsideTheBufferFaults : Obligations.EyieldOutsideTheBufferFaults :=
  fun _ hrep hrun hge => execEyield_of_outside hrep hrun (List.getElem?_eq_none hge)

/-- Settles O37: the other state, playing the same encoder, delivers the same element. -/
theorem eyieldDependsOnTheEncoderOnly : Obligations.EyieldDependsOnTheEncoderOnly := by
  intro s₁ s₂ t₁ henc hrep hrun h
  cases exec_eq_next_iff.mp h with
  | eyieldIdle hidle => simp [hrep, hrun] at hidle
  | eyieldElement _ _ helem =>
    rw [henc] at hrep hrun helem
    exact ⟨_, _, execEyield_of_element hrep hrun helem, congrArg advance henc, rfl, rfl⟩

/-! ## Unspecified state

`State.Alike` part by part, each part as the one field that may differ. -/

/-- The decoders differ at most in `DEC.PENDING`, and not in ClassifyingBitHalf (10_state.md R21). -/
def DecoderAlike (d d' : Decoder) : Prop :=
  ∃ w, d' = { d with pending := w } ∧ (d.step = .classifyingBitHalf → w = d.pending)

/-- The encoders differ at most in the elements from `ENC.LEN` on (10_state.md R24). -/
def EncoderAlike (e e' : Encoder) : Prop :=
  ∃ wave, e' = { e with wave := wave } ∧ wave.length = e.wave.length ∧
    ∀ k, k < e.len.toNat → wave[k]? = e.wave[k]?

theorem alike_iff {s t : State} :
    s.Alike t ↔
      ∃ dec enc, DecoderAlike s.dec dec ∧ EncoderAlike s.enc enc ∧ t = { s with dec := dec, enc := enc } := by
  constructor
  · intro h
    obtain ⟨dec, enc, prof, cap, input, output, draws⟩ := t
    obtain ⟨step, acc, count, pending⟩ := dec
    obtain ⟨wave, len, cursor, repeats, running⟩ := enc
    obtain ⟨rfl, rfl, rfl, hpending, rfl, rfl, rfl, rfl, hlength, hwave, rfl, rfl, rfl, rfl, rfl⟩ := h
    exact ⟨_, _, ⟨pending, rfl, hpending⟩, ⟨wave, rfl, hlength, hwave⟩, rfl⟩
  · rintro ⟨_, _, ⟨w, rfl, hpending⟩, ⟨wave, rfl, hlength, hwave⟩, rfl⟩
    exact ⟨rfl, rfl, rfl, hpending, rfl, rfl, rfl, rfl, hlength, hwave, rfl, rfl, rfl, rfl, rfl⟩

theorem alike_of_parts {s : State} {dec : Decoder} {enc : Encoder} (hdec : DecoderAlike s.dec dec)
    (henc : EncoderAlike s.enc enc) : s.Alike { s with dec := dec, enc := enc } :=
  alike_iff.mpr ⟨dec, enc, hdec, henc, rfl⟩

theorem DecoderAlike.refl (d : Decoder) : DecoderAlike d d := ⟨d.pending, rfl, fun _ => rfl⟩

theorem EncoderAlike.refl (e : Encoder) : EncoderAlike e e := ⟨e.wave, rfl, rfl, fun _ _ => rfl⟩

theorem State.Alike.refl (s : State) : s.Alike s := alike_of_parts (.refl s.dec) (.refl s.enc)

/-- Outside ClassifyingBitHalf `DEC.PENDING` may be any word. -/
theorem decoderAlike_of_not_classifying {d : Decoder} (w : Word) (h : d.step ≠ .classifyingBitHalf) :
    DecoderAlike d { d with pending := w } :=
  ⟨w, rfl, fun hs => absurd hs h⟩

/-- Outside ClassifyingBitHalf a pulse does not read `DEC.PENDING`, and on the way into it writes it
(40_decoder.md R89 to R91). -/
theorem decStep_alike {d d' : Decoder} (h : DecoderAlike d d') (p : Profile) (l : Level) (x : Word) :
    ∃ dec, decStep p d' l x = { decStep p d l x with dec := dec } ∧ DecoderAlike (decStep p d l x).dec dec := by
  have hstep : d'.step = d.step := by
    obtain ⟨w, rfl, -⟩ := h
    rfl
  cases hs : d.step with
  | idle =>
    rw [decStep_of_idle p l x hs, decStep_of_idle p l x (hstep.trans hs)]
    obtain ⟨w, rfl, -⟩ := h
    refine ⟨_, rfl, decoderAlike_of_not_classifying w ?_⟩
    split <;> simp
  | foundPreamble =>
    rw [decStep_of_foundPreamble p l x hs, decStep_of_foundPreamble p l x (hstep.trans hs)]
    obtain ⟨w, rfl, hw⟩ := h
    refine ⟨_, rfl, ?_⟩
    split
    · exact decoderAlike_of_not_classifying w (by simp)
    · split
      · exact ⟨w, rfl, hw⟩
      · exact decoderAlike_of_not_classifying w (by simp)
  | awaitingBitHalf =>
    obtain heof | hle := Nat.lt_or_ge (eofThr p) x.toNat
    · rw [decStep_of_frame_end l hs heof, decStep_of_frame_end l (hstep.trans hs) heof]
      obtain ⟨w, rfl, -⟩ := h
      exact ⟨_, rfl, decoderAlike_of_not_classifying w (by simp [completeFrame])⟩
    · rw [decStep_of_first_half l hs hle, decStep_of_first_half l (hstep.trans hs) hle]
      obtain ⟨w, rfl, -⟩ := h
      refine ⟨_, rfl, ?_⟩
      split
      · exact decoderAlike_of_not_classifying w (by simp [discardFrame])
      · exact .refl _
  | classifyingBitHalf =>
    obtain ⟨w, rfl, hw⟩ := h
    rw [hw hs]
    exact ⟨_, rfl, .refl _⟩

/-- No register shows `DEC.PENDING` outside ClassifyingBitHalf, or a waveform element (10_state.md R46 to R50). -/
theorem cfgRead_alike {s : State} {dec : Decoder} {enc : Encoder} (hdec : DecoderAlike s.dec dec)
    (henc : EncoderAlike s.enc enc) (draw : Word) (r : CfgReg) :
    cfgRead { s with dec := dec, enc := enc } draw r = cfgRead s draw r := by
  obtain ⟨w, rfl, hw⟩ := hdec
  obtain ⟨wave, rfl, -⟩ := henc
  cases r with
  | profile r => rfl
  | capacity => rfl
  | status v =>
    cases v with
    | decPending =>
      simp only [cfgRead, statusRead]
      split
      · rename_i hs
        exact hw hs
      · rfl
    | _ => rfl

theorem cfgDraws_alike {s : State} {dec : Decoder} {enc : Encoder} (hdec : DecoderAlike s.dec dec)
    (r : CfgReg) : cfgDraws { s with dec := dec, enc := enc } r = cfgDraws s r := by
  obtain ⟨w, rfl, -⟩ := hdec
  cases r with
  | profile r => rfl
  | capacity => rfl
  | status v => cases v <;> rfl

theorem EncoderAlike.stopped {e e' : Encoder} (h : EncoderAlike e e') :
    EncoderAlike { e with running := false } { e' with running := false } := by
  obtain ⟨wave, rfl, hlength, hwave⟩ := h
  exact ⟨wave, rfl, hlength, hwave⟩

theorem EncoderAlike.advance {e e' : Encoder} (h : EncoderAlike e e') :
    EncoderAlike (advance e) (Machine.advance e') := by
  obtain ⟨wave, rfl, hlength, hwave⟩ := h
  refine ⟨wave, ?_, ?_, ?_⟩
  · rw [Machine.advance, Machine.advance]
    split <;> rfl
  · rw [advance_wave]
    exact hlength
  · rw [advance_wave, advance_len]
    exact hwave

/-- A load writes every element below the new `ENC.LEN` (41_encoder.md R104). -/
theorem EncoderAlike.eloaded {e e' : Encoder} {cap : BitVec 8} {n : Nat} (h : EncoderAlike e e') (p : Profile)
    (key : Key) (rep : Word) (hfits : 2 * n + 2 ≤ cap.toNat) :
    EncoderAlike (eloaded p n key rep e) (Machine.eloaded p n key rep e') := by
  obtain ⟨wave, rfl, hlength, -⟩ := h
  refine ⟨waveLoad (build p key n) wave, rfl, ?_, fun k hk => ?_⟩
  · simp only [Machine.eloaded, waveLoad, List.length_append, List.length_drop, hlength]
  · rw [eloaded_len p key rep e hfits] at hk
    rw [eloaded_wave_built p key rep e hk]
    exact eloaded_wave_built p key rep { e with wave := wave } hk

/-- A command does in alike states the same to what is specified, and answers the same words. -/
theorem Executed.alike {s t : State} {i : Instr} {dec : Decoder} {enc : Encoder} (hinv : s.Inv)
    (hdec : DecoderAlike s.dec dec) (henc : EncoderAlike s.enc enc) (h : Executed s i t) :
    ∃ t', Executed { s with dec := dec, enc := enc } i t' ∧ t.Alike t' := by
  cases h with
  | feed l d =>
    obtain ⟨dec', hstep, hdec'⟩ := decStep_alike hdec s.prof l d
    refine ⟨_, .feed l d, alike_iff.mpr ⟨dec', enc, hdec', henc, ?_⟩⟩
    simp only [hstep]
    rfl
  | dreset => exact ⟨_, .dreset, alike_of_parts (.refl _) henc⟩
  | eload key rep hfits =>
    exact ⟨_, .eload key rep hfits, alike_of_parts hdec (henc.eloaded s.prof key rep hfits)⟩
  | eloadFailed key rep hfits => exact ⟨_, .eloadFailed key rep hfits, alike_of_parts hdec henc.stopped⟩
  | estop => exact ⟨_, .estop, alike_of_parts hdec henc.stopped⟩
  | eyieldIdle hidle =>
    have hstopped := henc.stopped
    obtain ⟨wave, rfl, -⟩ := henc
    exact ⟨_, .eyieldIdle hidle, alike_of_parts hdec hstopped⟩
  | eyieldElement hrep hrun helem =>
    have hadvanced := henc.advance
    obtain ⟨-, -, ⟨-, -, hcursor, hplay⟩, -⟩ := hinv
    have hpos := hplay hrun
    obtain ⟨wave, rfl, -, hwave⟩ := henc
    have helem' := (hwave _ (hcursor (by omega))).trans helem
    exact ⟨_, .eyieldElement hrep hrun helem', alike_of_parts hdec hadvanced⟩
  | revb v hw => exact ⟨_, .revb v hw, alike_of_parts hdec henc⟩
  | revbRefused v hw => exact ⟨_, .revbRefused v hw, alike_of_parts hdec henc⟩
  | cfgwr r v => exact ⟨_, .cfgwr r v, alike_of_parts hdec henc⟩
  | cfgwrRefused v ha => exact ⟨_, .cfgwrRefused v ha, alike_of_parts hdec henc⟩
  | cfgrd r =>
    refine ⟨_, .cfgrd r, alike_iff.mpr ⟨dec, enc, hdec, henc, ?_⟩⟩
    rw [cfgRead_alike hdec henc, cfgDraws_alike hdec]
    rfl
  | cfgrdRefused ha => exact ⟨_, .cfgrdRefused ha, alike_of_parts hdec henc⟩

/-- Settles O17: the port gives both states the same; a reset leaves them equal, and a command alike
(`Executed.alike`). -/
theorem unspecifiedStateIsNotObservable : Obligations.UnspecifiedStateIsNotObservable := by
  intro s₁ s₂ t₁ hinv halike h
  obtain ⟨dec, enc, hdec, henc, rfl⟩ := alike_iff.mp halike
  obtain ⟨hfetch, rfl⟩ | ⟨rest, hfetch, rfl⟩ | ⟨w, args, rest, i, hfetch, hd, hexec⟩ |
    ⟨w, args, rest, e, hfetch, hd, rfl⟩ := step_cases h
  · exact ⟨_, step_of_wait hfetch, halike⟩
  · exact ⟨_, step_of_reset hfetch, .refl _⟩
  · obtain ⟨t₂, hexec₂, halike₂⟩ :=
      (exec_eq_next_iff.mp hexec).alike (s := setInput rest s₁) hinv hdec henc
    have hstep := step_of_fetch_instr (s := { s₁ with dec := dec, enc := enc }) hfetch hd
    exact ⟨t₂, hstep.trans hexec₂.exec_eq, halike₂⟩
  · exact ⟨_, step_of_fetch_illegal hfetch hd, alike_of_parts hdec henc⟩

end Sys2Proof.Machine

/-! PROOFS. FEED in ClassifyingBitHalf (40_decoder.md R82, R92, R93). -/

namespace Sys2Proof.Machine

/-- The classifier in windows, (short, long) tested first (40_decoder.md R82). -/
theorem classify_eq (p : Profile) (h1 h2 : Word) :
    classify p h1 h2 =
      if Near h1.toNat p.ts.toNat (winShort p) ∧ Near h2.toNat p.tl.toNat (winLong p) then some false
      else if Near h1.toNat p.tl.toNat (winLong p) ∧ Near h2.toNat p.ts.toNat (winShort p) then some true
      else none := by
  simp only [classify, Bool.and_eq_true, isShort_iff, isLong_iff]

/-- The level of a second half is refused when it is checked and wrong (40_decoder.md R92). -/
theorem second_level_refused_iff (p : Profile) (l : Level) :
    (cellEn p && l != cellL2 p) = true ↔ ¬(p.cellLvl.getLsbD 0 = true → l = p.cellLvl.getLsbD 2) := by
  rw [Bool.and_eq_true, bne_iff_ne, Classical.not_imp, cellEn, cellL2]

/-- ClassifyingBitHalf with a refused level, an unclassifiable cell or no room for the bit (40_decoder.md R92,
R93). -/
theorem decStep_of_discard {p : Profile} {dec : Decoder} {l : Level} {d : Word}
    (hs : dec.step = .classifyingBitHalf)
    (h : (cellEn p && l != cellL2 p) = true ∨ classify p dec.pending d = none ∨ 64 ≤ dec.count.toNat) :
    decStep p dec l d = { dec := discardFrame dec } := by
  cases hlevel : cellEn p && l != cellL2 p with
  | true => simp only [decStep, hs, fedClassifyingBitHalf, hlevel, if_true]
  | false =>
    cases hb : classify p dec.pending d with
    | none => simp only [decStep, hs, fedClassifyingBitHalf, hlevel, hb, Bool.false_eq_true, if_false]
    | some b =>
      have hfull : 64 ≤ dec.count.toNat := by simpa [hlevel, hb] using h
      rw [decStep_of_second_half hs hlevel hb, appendBit_of_ge b hfull]

/-- A pulse that appends the bit `b` answers it with `BITV` (40_decoder.md R93, R94). -/
theorem exec_feed_of_appended {s : State} {l : Level} {d : Word} {b : Bool}
    (h : decStep s.prof s.dec l d = appendBit s.dec b) (hcount : s.dec.count.toNat < 64) :
    exec (.feed l d) s = .next
      { s with
        dec :=
          { s.dec with
            step := .awaitingBitHalf, acc := BitVec.ofNat 64 (s.dec.acc.toNat * 2 + b.toNat)
            count := BitVec.ofNat 7 (s.dec.count.toNat + 1) }
        output := s.output ++ [if b then 0x01000600#32 else 0x01000200#32, 0#32, 0#32] } := by
  rw [exec_feed, h, appendBit_of_lt b hcount, feedResponse_bit]

/-- Settles O29: the classifier of `classify_eq` gives the bit, which is appended when there is room. -/
theorem feedOfASecondHalf : Obligations.FeedOfASecondHalf := by
  intro s l d hs ts tl zero one levelOk
  have hclassify : classify s.prof s.dec.pending d =
      if zero then some false else if one then some true else none := classify_eq ..
  have haccept (h : levelOk) : (cellEn s.prof && l != cellL2 s.prof) = false :=
    Bool.eq_false_iff.mpr fun hrefused => (second_level_refused_iff s.prof l).mp hrefused h
  refine ⟨?_, ?_, ?_⟩
  · rintro ⟨hlevel, hzero, hcount⟩
    rw [if_pos hzero] at hclassify
    exact exec_feed_of_appended (decStep_of_second_half hs (haccept hlevel) hclassify) hcount
  · rintro ⟨hlevel, hzero, hone, hcount⟩
    rw [if_neg hzero, if_pos hone] at hclassify
    exact exec_feed_of_appended (decStep_of_second_half hs (haccept hlevel) hclassify) hcount
  · intro h
    apply exec_feed_of_unreported (dec := discardFrame s.dec)
    apply decStep_of_discard hs
    obtain hlevel | ⟨hzero, hone⟩ | hfull := h
    · exact .inl ((second_level_refused_iff s.prof l).mpr hlevel)
    · exact .inr (.inl (by rw [hclassify, if_neg hzero, if_neg hone]))
    · exact .inr (.inr hfull)

end Sys2Proof.Machine

/-! PROOFS. A profile register reads what was written to it (43_register_access.md R117, R118). -/

namespace Sys2Proof.Machine

/-- Settles O48: the index is that of one register, which CFGWR sets and CFGRD reads. -/
theorem cfgrdReadsWhatCfgwrWrote : Obligations.CfgrdReadsWhatCfgwrWrote := by
  intro s a v ha
  obtain ⟨r, rfl⟩ := exists_profile_of_le ha
  refine ⟨_, _, r, rfl, exec_cfgwr_profile r v s, exec_cfgrd_profile r _, ?_⟩
  rw [profGet_profSet_same]

end Sys2Proof.Machine
